-- ==== Sys2Proof/Word.lean ====
section
/-! DEFINITION. The words of the transmitter (00_scope.md R8, 10_state.md R22, 30_encoding.md R82).
All values are unsigned; bit 0 is the least significant bit. -/

namespace Sys2Proof

/-- A byte, 8 bits (R8). -/
abbrev Byte := BitVec 8

/-- A nibble, 4 bits: the width of the data bus in 4-bit mode (R8). -/
abbrev Nibble := BitVec 4

/-- A pin identifier: `PIN_ID_WIDTH` = 8 bits (R7, R22, decision D13). -/
abbrev PinId := BitVec 8

/-- A logic level: `false` is 0, `true` is 1 (R9). -/
abbrev Level := Bool

/-- The request word, format REQ56 (R82). -/
abbrev RequestWord := BitVec 56

end Sys2Proof
end

