-- ==== Sys2Proof/Syntax.lean ====
section
/-! DEFINITION. The seventeen requests of the transmitter (00_scope.md R2, 30_encoding.md R83), one
constructor per row of the opcode table, in the table's order. -/

namespace Sys2Proof

/-- A request with its operands. Every operand is one whole unsigned byte (R84). -/
inductive Instr where
  /-- INIT rs, en, d4, d5, d6, d7 (R110). -/
  | init (rs en d4 d5 d6 d7 : PinId)
  /-- CLEAR (R140). -/
  | clear
  /-- HOME (R141). -/
  | home
  /-- DISPLAY_ON (R121). -/
  | displayOn
  /-- DISPLAY_OFF (R122). -/
  | displayOff
  /-- CURSOR_ON (R123). -/
  | cursorOn
  /-- CURSOR_OFF (R124). -/
  | cursorOff
  /-- BLINK_ON (R125). -/
  | blinkOn
  /-- BLINK_OFF (R126). -/
  | blinkOff
  /-- AUTOSCROLL_ON (R127). -/
  | autoscrollOn
  /-- AUTOSCROLL_OFF (R128). -/
  | autoscrollOff
  /-- LEFT_TO_RIGHT (R129). -/
  | leftToRight
  /-- RIGHT_TO_LEFT (R130). -/
  | rightToLeft
  /-- SHIFT_LEFT (R150). -/
  | shiftLeft
  /-- SHIFT_RIGHT (R151). -/
  | shiftRight
  /-- SET_CURSOR col, row (R160). -/
  | setCursor (col row : Byte)
  /-- WRITE_CHAR c (R170). -/
  | writeChar (c : Byte)
  deriving DecidableEq, Repr

end Sys2Proof
end

