-- ==== Sys2Proof/Decode.lean ====
section
/-! DEFINITION. Decoding of a request word and its encoder (30_encoding.md R82, R83, R84, R85, R94). -/

namespace Sys2Proof

/-- Why the decoder rejects a word: its `op` selects no operation (R85). -/
inductive DecodeRejection where
  | reservedOp (op : Byte)
  deriving DecidableEq, Repr

/-- Bits 55:48, the operation code (R82). -/
def opOf (w : RequestWord) : Byte := w.extractLsb' 48 8

/-- Bits 47:40, operand byte `a0` (R82). -/
def a0Of (w : RequestWord) : Byte := w.extractLsb' 40 8

/-- Bits 39:32, operand byte `a1` (R82). -/
def a1Of (w : RequestWord) : Byte := w.extractLsb' 32 8

/-- Bits 31:24, operand byte `a2` (R82). -/
def a2Of (w : RequestWord) : Byte := w.extractLsb' 24 8

/-- Bits 23:16, operand byte `a3` (R82). -/
def a3Of (w : RequestWord) : Byte := w.extractLsb' 16 8

/-- Bits 15:8, operand byte `a4` (R82). -/
def a4Of (w : RequestWord) : Byte := w.extractLsb' 8 8

/-- Bits 7:0, operand byte `a5` (R82). -/
def a5Of (w : RequestWord) : Byte := w.extractLsb' 0 8

/-- R94: the operation is the row of R83 whose code is `op`, its operands are the bytes that row
names, and all other bits are ignored; every other `op` is reserved (R85). -/
def decode (w : RequestWord) : Except DecodeRejection Instr :=
  match (opOf w).toNat with
  | 0x01 => .ok (.init (a0Of w) (a1Of w) (a2Of w) (a3Of w) (a4Of w) (a5Of w))
  | 0x02 => .ok .clear
  | 0x03 => .ok .home
  | 0x04 => .ok .displayOn
  | 0x05 => .ok .displayOff
  | 0x06 => .ok .cursorOn
  | 0x07 => .ok .cursorOff
  | 0x08 => .ok .blinkOn
  | 0x09 => .ok .blinkOff
  | 0x0A => .ok .autoscrollOn
  | 0x0B => .ok .autoscrollOff
  | 0x0C => .ok .leftToRight
  | 0x0D => .ok .rightToLeft
  | 0x0E => .ok .shiftLeft
  | 0x0F => .ok .shiftRight
  | 0x10 => .ok (.setCursor (a0Of w) (a1Of w))
  | 0x11 => .ok (.writeChar (a0Of w))
  | _ => .error (.reservedOp (opOf w))

/-- A word of format REQ56 from its seven bytes (R82). -/
def req56 (op a0 a1 a2 a3 a4 a5 : Byte) : RequestWord :=
  op ++ a0 ++ a1 ++ a2 ++ a3 ++ a4 ++ a5

/-- The word an assembler writes for a request: the code of R83, the operands in the bytes that row
names, the unused bytes 0 (R82). -/
def encode : Instr → RequestWord
  | .init rs en d4 d5 d6 d7 => req56 0x01#8 rs en d4 d5 d6 d7
  | .clear => req56 0x02#8 0#8 0#8 0#8 0#8 0#8 0#8
  | .home => req56 0x03#8 0#8 0#8 0#8 0#8 0#8 0#8
  | .displayOn => req56 0x04#8 0#8 0#8 0#8 0#8 0#8 0#8
  | .displayOff => req56 0x05#8 0#8 0#8 0#8 0#8 0#8 0#8
  | .cursorOn => req56 0x06#8 0#8 0#8 0#8 0#8 0#8 0#8
  | .cursorOff => req56 0x07#8 0#8 0#8 0#8 0#8 0#8 0#8
  | .blinkOn => req56 0x08#8 0#8 0#8 0#8 0#8 0#8 0#8
  | .blinkOff => req56 0x09#8 0#8 0#8 0#8 0#8 0#8 0#8
  | .autoscrollOn => req56 0x0A#8 0#8 0#8 0#8 0#8 0#8 0#8
  | .autoscrollOff => req56 0x0B#8 0#8 0#8 0#8 0#8 0#8 0#8
  | .leftToRight => req56 0x0C#8 0#8 0#8 0#8 0#8 0#8 0#8
  | .rightToLeft => req56 0x0D#8 0#8 0#8 0#8 0#8 0#8 0#8
  | .shiftLeft => req56 0x0E#8 0#8 0#8 0#8 0#8 0#8 0#8
  | .shiftRight => req56 0x0F#8 0#8 0#8 0#8 0#8 0#8 0#8
  | .setCursor col row => req56 0x10#8 col row 0#8 0#8 0#8 0#8
  | .writeChar c => req56 0x11#8 c 0#8 0#8 0#8 0#8 0#8

/-- How many operand bytes, from `a0` on, the row of R83 names. -/
def Instr.operandBytes : Instr → Nat
  | .init .. => 6
  | .clear => 0
  | .home => 0
  | .displayOn => 0
  | .displayOff => 0
  | .cursorOn => 0
  | .cursorOff => 0
  | .blinkOn => 0
  | .blinkOff => 0
  | .autoscrollOn => 0
  | .autoscrollOff => 0
  | .leftToRight => 0
  | .rightToLeft => 0
  | .shiftLeft => 0
  | .shiftRight => 0
  | .setCursor _ _ => 2
  | .writeChar _ => 1

/-- A request word as the opcode table numbers its bits: one 56-bit value, bit 0 the least
significant; bits at or above `nbits`, and above bit 55, are not the word's (log entry 18). -/
def tableWord (nbits w : Nat) : RequestWord := BitVec.ofNat 56 (w % 2 ^ nbits)

/-- The instruction this decoder reads from a word of the opcode table. -/
def decodeTableWord (nbits w : Nat) : Option Instr :=
  match decode (tableWord nbits w) with
  | .ok i => some i
  | .error _ => none

end Sys2Proof
end

