-- ==== Sys2Proof/Config.lean ====
section
/-! DEFINITION. The parameters of 00_scope.md R7 as one configuration record whose defaults are the
values of that rule, and the OPEN parameters as constants nothing is known of.
"GK" marks a number the spec supplies from general knowledge (log entry 3). -/

namespace Sys2Proof

/-- `ROW_OFFSET[2]`, OPEN (R7, P1): no value is known, and no operation reads it (R161). Log entry 14. -/
opaque Config.openRowOffset2 : Byte

/-- `ROW_OFFSET[3]`, OPEN (R7, P1): no value is known, and no operation reads it (R161). Log entry 14. -/
opaque Config.openRowOffset3 : Byte

/-- `CLK_HZ`, OPEN (R7, P2): no value is known. Log entry 14. -/
opaque Config.openClkHz : Nat

/-- The type of WRITE_FLOAT's operand: the source does not give its format (R173, N8). Log entry 15. -/
opaque Config.FloatValue : Type

/-- `FmtInt` at every number but 42: external, under no law (R172, D23). `none` is a number too large
for the formatting buffer (R174, U4), whose size the source does not give. The operand's width and sign
are not in the source (R172, N8): an unbounded signed number, DESIGN CHOICE. Log entry 15. -/
opaque Config.openFmtInt : Int → Option (List Byte)

/-- `FmtFloat`: external, under no law (R173, D23); `none` as for `openFmtInt`. Log entry 15. -/
opaque Config.fmtFloat : Config.FloatValue → Option (List Byte)

/-- `ROW_TABLE_LEN`, the length of the row-offset table (R7, R27). -/
def Config.rowTableLen : Nat := 4

/-- The parameters of R7. -/
structure Config where
  /-- `N_PINS`. -/
  nPins : Nat := 6
  /-- `BUS_WIDTH`. -/
  busWidth : Nat := 4
  /-- `N_SHADOW`. -/
  nShadow : Nat := 3
  /-- `NUM_LINES` (R38). -/
  numLines : Nat := 2
  /-- `ROW_OFFSET[0]`. -/
  rowOffset0 : Byte := 0x00#8
  /-- `ROW_OFFSET[1]`, GK G9. -/
  rowOffset1 : Byte := 0x40#8
  /-- `ROW_OFFSET[2]`, OPEN. -/
  rowOffset2 : Byte := Config.openRowOffset2
  /-- `ROW_OFFSET[3]`, OPEN. -/
  rowOffset3 : Byte := Config.openRowOffset3
  /-- `NIB_RESYNC`. -/
  nibResync : Nibble := 0x3#4
  /-- `NIB_COMMIT`. -/
  nibCommit : Nibble := 0x2#4
  /-- `T_POWERON`, microseconds. -/
  tPowerOn : Nat := 40000
  /-- `T_RESYNC_1`. -/
  tResync1 : Nat := 4100
  /-- `T_RESYNC_2` (decision D5). -/
  tResync2 : Nat := 4100
  /-- `T_RESYNC_3` (placement: decision D5). -/
  tResync3 : Nat := 150
  /-- `T_EN_SETUP`. -/
  tEnSetup : Nat := 1
  /-- `T_EN_HIGH`. -/
  tEnHigh : Nat := 1
  /-- `T_EN_RECOVER`. -/
  tEnRecover : Nat := 100
  /-- `T_CLEAR_HOME`. -/
  tClearHome : Nat := 2000
  /-- `MODE_INSTR`, the register-select level of a command. -/
  modeInstr : Level := false
  /-- `MODE_DATA`, the register-select level of a character. -/
  modeData : Level := true
  /-- `CMD_DDRAM`. -/
  cmdDdram : Byte := 0x80#8
  /-- `CMD_CLEAR`, GK G1. -/
  cmdClear : Byte := 0x01#8
  /-- `CMD_HOME`, GK G2. -/
  cmdHome : Byte := 0x02#8
  /-- `CMD_ENTRY`, GK G3. -/
  cmdEntry : Byte := 0x04#8
  /-- `CMD_DISPLAY`, GK G4. -/
  cmdDisplay : Byte := 0x08#8
  /-- `CMD_SHIFT`, GK G5. -/
  cmdShift : Byte := 0x10#8
  /-- `CMD_FUNCTION`, GK G6. -/
  cmdFunction : Byte := 0x20#8
  /-- `ENTRY_LEFT` (I/D), GK G3. -/
  entryLeft : Byte := 0x02#8
  /-- `ENTRY_AUTOSCROLL` (S), GK G3. -/
  entryAutoscroll : Byte := 0x01#8
  /-- `DISP_ON` (D), GK G4. -/
  dispOn : Byte := 0x04#8
  /-- `DISP_CURSOR` (C), GK G4. -/
  dispCursor : Byte := 0x02#8
  /-- `DISP_BLINK` (B), GK G4. -/
  dispBlink : Byte := 0x01#8
  /-- `SHIFT_DISPLAY` (S/C), GK G5. -/
  shiftDisplay : Byte := 0x08#8
  /-- `SHIFT_DIR_RIGHT` (R/L), GK G5. -/
  shiftDirRight : Byte := 0x04#8
  /-- `FN_8BIT` (DL), GK G6. -/
  fn8Bit : Byte := 0x10#8
  /-- `FN_2LINE` (N), GK G6. -/
  fn2Line : Byte := 0x08#8
  /-- `FN_5X10` (F), GK G6. -/
  fn5x10 : Byte := 0x04#8
  /-- `STR_TERMINATOR`, GK G10. -/
  strTerminator : Byte := 0x00#8
  /-- `VISIBLE_COLS`: used by no rule. -/
  visibleCols : Nat := 16
  /-- `CLK_HZ`, OPEN: the clock of a clocked implementation (R252, P2). -/
  clkHz : Nat := Config.openClkHz

/-- This machine's parameters: the values of R7. -/
def config : Config := {}

/-- `ROW_OFFSET[i]` (R27). -/
def Config.rowOffset (c : Config) : Fin Config.rowTableLen → Byte
  | ⟨0, _⟩ => c.rowOffset0
  | ⟨1, _⟩ => c.rowOffset1
  | ⟨2, _⟩ => c.rowOffset2
  | ⟨3, _⟩ => c.rowOffset3

end Sys2Proof
end

