-- ==== Sys2Proof/Machine/State.lean ====
section
/-! DEFINITION. The whole state of the transmitter (10_state.md R20) and its value after reset
(10_state.md R35, 70_reset_and_hazards.md R230). -/

namespace Sys2Proof.Machine

/-- The lifecycle phase (R21). -/
inductive Phase where
  | uninitialized
  | ready
  deriving DecidableEq, Repr

/-- The six pin roles (R22). -/
inductive PinRole where
  | rs | en | d4 | d5 | d6 | d7
  deriving DecidableEq, Repr

/-- The six pin-assignment registers (R22). -/
structure PinAssignment where
  /-- pin.RS, register-select. -/
  rs : PinId
  /-- pin.EN, enable. -/
  en : PinId
  /-- pin.D4, nibble bit 0. -/
  d4 : PinId
  /-- pin.D5, nibble bit 1. -/
  d5 : PinId
  /-- pin.D6, nibble bit 2. -/
  d6 : PinId
  /-- pin.D7, nibble bit 3. -/
  d7 : PinId
  deriving DecidableEq, Repr

/-- The three shadow registers by name: R11's `x[0]`, `x[1]`, `x[2]`. -/
inductive Shadow where
  | fn | ctrl | mode
  deriving DecidableEq, Repr

/-- An event of the trace (R9, R10, R29). -/
inductive Event where
  /-- `P(p, l)`: level `l` was written to pin `p`. -/
  | P (p : PinId) (l : Level)
  /-- `W(n)`: a wait of at least `n` microseconds. -/
  | W (n : Nat)
  deriving DecidableEq, Repr

/-- The level latch: rising pins with the last level written to each; a pin that is not listed is
*unknown* (R28, log entry 12). -/
abbrev Levels := List (PinId × Level)

/-- One action of an operation (R13): a call of one of the two primitives, which is an event, or a
write of a register, which is not. -/
inductive Action where
  /-- `GpioWrite(pin.role, l)` (R9). -/
  | gpioWrite (role : PinRole) (l : Level)
  /-- `DelayUs(n)` (R10). -/
  | delayUs (n : Nat)
  /-- `pin.RS <- rs; …; pin.D7 <- d7` (R110). -/
  | setPins (p : PinAssignment)
  /-- `x <- v` on a shadow register (R11). -/
  | setShadow (r : Shadow) (v : Byte)
  /-- `phase <- p` (R21). -/
  | setPhase (p : Phase)
  deriving DecidableEq, Repr

/-- The model-level reasons of R202 with what each records: code 3 records the request word. -/
inductive RefuseReason where
  /-- Code 1: an operation other than INIT in phase Uninitialized (R204). -/
  | beforeInit
  /-- Code 2: INIT in phase Ready (R205). -/
  | initWhenReady
  /-- Code 3: a word whose `op` is reserved (R85, R206). -/
  | reservedRequest (w : RequestWord)
  /-- Code 4: a second requester's operation before the current one has ended (R202, R220). -/
  | interleaved
  deriving DecidableEq, Repr

/-- The grain of a request's run (R13): one big step, or one step per event (log entry 5). -/
inductive Pace where
  | whole
  | stepped
  deriving DecidableEq, Repr

/-- What the outside world drives at one step (R81, R230; log entry 4). -/
inductive PortInput where
  /-- Nothing: `req_valid` = 0, `rst` not asserted. -/
  | idle
  /-- `req_valid` = 1 with this `req_word` (R81). -/
  | request (pace : Pace) (w : RequestWord)
  /-- A second requester begins this operation without waiting for `req_ready` (R57, R202). -/
  | rival (w : RequestWord)
  /-- `rst` asserted (R230). -/
  | reset
  deriving DecidableEq, Repr

/-- The state: the components of R20, the operation in progress (R30, R33), and the model's own list
of inputs to come. -/
structure State where
  /-- Lifecycle phase (R21). -/
  phase : Phase
  /-- Pin-assignment registers (R22). -/
  pin : PinAssignment
  /-- Function-set shadow, `x[0]` (R24). -/
  fn : Byte
  /-- Display-control shadow, `x[1]` (R25). -/
  ctrl : Byte
  /-- Entry-mode shadow, `x[2]` (R26). -/
  mode : Byte
  /-- Level latch (R28). -/
  level : Levels
  /-- Events since reset, oldest first (R29). -/
  trace : List Event
  /-- The sticky model-only mark (R203). -/
  refused : Bool
  /-- What each refusal recorded, oldest first (R202; log entry 9). -/
  refusals : List RefuseReason
  /-- Actions of the operation in progress still to come; `[]` when none is in progress (R30, R33). -/
  pending : List Action
  /-- Inputs of the coming steps, the model's own field (log entry 4). -/
  port : List PortInput
  deriving DecidableEq, Repr

/-- The hardware raises no exception, fault or trap, ever (R200, R208, R211): there is no fault, and
so no constructor. -/
inductive Fault where
  deriving DecidableEq, Repr

/-- Why a step has no meaning. The refusals of the spec (R202) are NOT here: they have an effect, the
mark `refused` (R203), and are next states (log entry 1). -/
inductive Refusal where
  /-- Raised by `exec`'s arm of an instruction that has no meaning yet, and by nothing else; safe. -/
  | notModelled (mnemonic : String)
  deriving DecidableEq, Repr

/-- After hardware reset (R35, R230): Uninitialized, every level unknown, the trace empty, nothing
refused, nothing in progress. The pin-assignment and shadow registers are unspecified there; the
zeros are the model's (DESIGN CHOICE, log entry 2). -/
def State.reset : State where
  phase := .uninitialized
  pin := ⟨0#8, 0#8, 0#8, 0#8, 0#8, 0#8⟩
  fn := 0#8
  ctrl := 0#8
  mode := 0#8
  level := []
  trace := []
  refused := false
  refusals := []
  pending := []
  port := []

end Sys2Proof.Machine
end

