-- ==== Sys2Proof/Machine/Flags.lean ====
section
/-! DEFINITION. The flag bits of the shadow registers. The machine has no condition flags (10_state.md
R31); what an operation sets or clears is one bit of a shadow register (41_mode_toggles.md R120). -/

namespace Sys2Proof.Machine

/-- The set form, `s | FLAG` (R95, R120). -/
def setFlag (s flag : Byte) : Byte := s ||| flag

/-- The clear form, `s & ~FLAG`, with the 8-bit complement (R95, R120). -/
def clearFlag (s flag : Byte) : Byte := s &&& ~~~flag

end Sys2Proof.Machine
end

