-- ==== Sys2Proof/Machine/Operands.lean ====
section
/-! DEFINITION. Operand forms and the arithmetic of 30_encoding.md R95: nibbles of a byte, bits of a
nibble, the row clamp and the DDRAM address of SET_CURSOR. -/

namespace Sys2Proof.Machine

/-- `v >> 4`, that is `v[7:4]` (R95, R182). -/
def highNibble (v : Byte) : Nibble := (v >>> 4).setWidth 4

/-- `v & 0xF`, that is `v[3:0]` (R95, R182). -/
def lowNibble (v : Byte) : Nibble := (v &&& 0x0F#8).setWidth 4

/-- `n[i]`, the level data line D(4+i) gets (R53, R95). -/
def nibbleBit (n : Nibble) (i : Nat) : Level := n.getLsbD i

/-- The nibble whose bits 3, 2, 1, 0 are the given levels (R186). -/
def nibbleOfBits (b3 b2 b1 b0 : Level) : Nibble :=
  BitVec.ofBool b3 ++ BitVec.ofBool b2 ++ BitVec.ofBool b1 ++ BitVec.ofBool b0

/-- `min(ROW_TABLE_LEN - 1, NUM_LINES - 1)` (R160). -/
def rowLimit : Nat := min (Config.rowTableLen - 1) (config.numLines - 1)

theorem rowLimit_lt : rowLimit < Config.rowTableLen := by decide

/-- The clamped row, `min(row, limit)` (R160, R161). -/
def clampRow (row : Byte) : Fin Config.rowTableLen :=
  ⟨min row.toNat rowLimit, Nat.lt_of_le_of_lt (Nat.min_le_right _ _) rowLimit_lt⟩

/-- `(col + ROW_OFFSET[r]) mod 256`; the column is forwarded unchecked (R160, R162, R163). -/
def cursorAddress (col row : Byte) : Byte := col + config.rowOffset (clampRow row)

/-- The set-DDRAM-address command, high bit forced set (R160). -/
def cursorCommand (col row : Byte) : Byte := config.cmdDdram ||| cursorAddress col row

/-- `CMD_FUNCTION | fn` (R24). -/
def functionCommand (fn : Byte) : Byte := config.cmdFunction ||| fn

/-- `CMD_DISPLAY | ctrl` (R25). -/
def displayCommand (ctrl : Byte) : Byte := config.cmdDisplay ||| ctrl

/-- `CMD_ENTRY | mode` (R26). -/
def entryCommand (mode : Byte) : Byte := config.cmdEntry ||| mode

/-- The whole-display shift to the left (R150). -/
def shiftLeftCommand : Byte := config.cmdShift ||| config.shiftDisplay

/-- The whole-display shift to the right (R151). -/
def shiftRightCommand : Byte := config.cmdShift ||| config.shiftDisplay ||| config.shiftDirRight

end Sys2Proof.Machine
end

