-- ==== Sys2Proof/Machine/Ops.lean ====
section
/-! DEFINITION. The named operations every meaning is built from: the level latch (10_state.md R28), the
two primitives (00_scope.md R9, R10), the enable pulse, nibble and byte transfers (46_send.md R180 to
R182), running an operation, refusing a request (60_exceptions.md R203) and hardware reset
(70_reset_and_hazards.md R230). -/

namespace Sys2Proof.Machine

/-- `level[p]`: `none` is *unknown* (R28). -/
def readLevel : Levels → PinId → Option Level
  | [], _ => none
  | (q, l) :: rest, p => if p = q then some l else readLevel rest p

/-- `level[p] <- l`, keeping the pins rising (R9, R28). -/
def writeLevel : Levels → PinId → Level → Levels
  | [], p, l => [(p, l)]
  | (q, k) :: rest, p, l =>
    if p.toNat < q.toNat then (p, l) :: (q, k) :: rest
    else if p = q then (p, l) :: rest
    else (q, k) :: writeLevel rest p l

/-- The canonical form of the latch: pins strictly rising. -/
def levelsWf : Levels → Bool
  | [] => true
  | [_] => true
  | (p, _) :: (q, k) :: rest => decide (p.toNat < q.toNat) && levelsWf ((q, k) :: rest)

/-- The identifier stored for a role (R22). -/
def pinOf (a : PinAssignment) : PinRole → PinId
  | .rs => a.rs
  | .en => a.en
  | .d4 => a.d4
  | .d5 => a.d5
  | .d6 => a.d6
  | .d7 => a.d7

/-- `x[i]` (R11). -/
def readShadow (s : State) : Shadow → Byte
  | .fn => s.fn
  | .ctrl => s.ctrl
  | .mode => s.mode

/-- `x[i] <- v` (R11). -/
def writeShadow (s : State) (v : Byte) : Shadow → State
  | .fn => { s with fn := v }
  | .ctrl => { s with ctrl := v }
  | .mode => { s with mode := v }

/-- `GpioWrite(p, l)`: appends `P(p, l)` and sets `level[p]`, whether or not the level changes (R9, R183). -/
def gpioWrite (p : PinId) (l : Level) (s : State) : State :=
  { s with trace := s.trace ++ [.P p l], level := writeLevel s.level p l }

/-- `DelayUs(n)`: appends `W(n)` and does nothing else (R10). -/
def delayUs (n : Nat) (s : State) : State :=
  { s with trace := s.trace ++ [.W n] }

/-- One action. -/
def applyAction : Action → State → State
  | .gpioWrite role l, s => gpioWrite (pinOf s.pin role) l s
  | .delayUs n, s => delayUs n s
  | .setPins p, s => { s with pin := p }
  | .setShadow r v, s => writeShadow s v r
  | .setPhase p, s => { s with phase := p }

/-- The actions that append an event (R9, R10). -/
def isEvent : Action → Bool
  | .gpioWrite _ _ => true
  | .delayUs _ => true
  | .setPins _ => false
  | .setShadow _ _ => false
  | .setPhase _ => false

/-- The actions of an operation, in order, to the last (R13, R62). -/
def perform : List Action → State → State
  | [], s => s
  | a :: rest, s => perform rest (applyAction a s)

/-- ENABLE_PULSE (R180). -/
def enablePulse : List Action :=
  [.gpioWrite .en false, .delayUs config.tEnSetup,
   .gpioWrite .en true, .delayUs config.tEnHigh,
   .gpioWrite .en false, .delayUs config.tEnRecover]

/-- TRANSMIT_NIBBLE `n` (R181): D4, D5, D6, D7 in that order, then the pulse. -/
def transmitNibble (n : Nibble) : List Action :=
  [.gpioWrite .d4 (nibbleBit n 0), .gpioWrite .d5 (nibbleBit n 1),
   .gpioWrite .d6 (nibbleBit n 2), .gpioWrite .d7 (nibbleBit n 3)] ++ enablePulse

/-- SEND `v, m` (R182): RS, the high nibble, the low nibble. -/
def send (v : Byte) (m : Level) : List Action :=
  .gpioWrite .rs m :: (transmitNibble (highNibble v) ++ transmitNibble (lowNibble v))

/-- No operation is in progress (R33): a request is accepted (R81). -/
def reqReady (s : State) : Bool := s.pending.isEmpty

/-- The output `req_ready` at the coming step: 1 exactly when no operation is in progress (R81), and 0
while `rst` is asserted (R230). -/
def reqReadyOutput (s : State) : Bool := reqReady s && !decide (s.port.head? = some .reset)

/-- `refuse <Reason>` (R202, R203, R211): the mark is set and the reason recorded; nothing else
changes, and no event is appended. It is this machine's only "exception entry", and there is no
return from it (R212). -/
def refuse (r : RefuseReason) (s : State) : State :=
  { s with refused := true, refusals := s.refusals ++ [r] }

/-- The number R202 gives a reason. -/
def refuseCode : RefuseReason → Nat
  | .beforeInit => 1
  | .initWhenReady => 2
  | .reservedRequest _ => 3
  | .interleaved => 4

/-- Run an operation of phase Ready to its end; in phase Uninitialized it is refused `BeforeInit`
(R204, R216), while another operation is in progress `Interleaved` (R202; log entry 10). -/
def whenReady (acts : List Action) (s : State) : Host.Outcome State Fault Refusal :=
  if reqReady s then
    match s.phase with
    | .ready => .next (perform acts s)
    | .uninitialized => .next (refuse .beforeInit s)
  else .next (refuse .interleaved s)

/-- Run INIT to its end; in phase Ready it is refused `InitWhenReady` (R205, R216), while another
operation is in progress `Interleaved` (R202; log entry 10). -/
def whenUninitialized (acts : List Action) (s : State) : Host.Outcome State Fault Refusal :=
  if reqReady s then
    match s.phase with
    | .uninitialized => .next (perform acts s)
    | .ready => .next (refuse .initWhenReady s)
  else .next (refuse .interleaved s)

/-- Register writes that follow an operation's last event end the operation with it; otherwise they
wait for the next event (log entry 6). -/
def settleAfterEvent (rest : List Action) (s : State) : State :=
  if rest.any isEvent then { s with pending := rest }
  else { perform rest s with pending := [] }

/-- Emit the next event of the given actions, with the register writes before it. -/
def emitNext : List Action → State → State
  | [], s => { s with pending := [] }
  | a :: rest, s =>
    if isEvent a then settleAfterEvent rest (applyAction a s) else emitNext rest (applyAction a s)

/-- One small step of the operation in progress: its position advances by one event (R30). With none
in progress nothing happens. -/
def advance (s : State) : State := emitNext s.pending s

/-- Hardware reset (R230, R231): every component as after power-on, an operation in progress
abandoned, no pin written; the inputs still to come are the outside's and stay. -/
def hardwareReset (s : State) : State := { State.reset with port := s.port }

end Sys2Proof.Machine
end

