-- ==== Sys2Proof/Machine/ClearHome.lean ====
section
/-! DEFINITION. CLEAR and HOME (42_clear_home.md R140, R141, R142). -/

namespace Sys2Proof.Machine

/-- `SEND(CMD_CLEAR, 0); DelayUs(T_CLEAR_HOME)` (R140). -/
def clearActions : List Action :=
  send config.cmdClear config.modeInstr ++ [.delayUs config.tClearHome]

/-- `SEND(CMD_HOME, 0); DelayUs(T_CLEAR_HOME)` (R141). -/
def homeActions : List Action :=
  send config.cmdHome config.modeInstr ++ [.delayUs config.tClearHome]

/-- CLEAR (R140). -/
def execClear (s : State) : Host.Outcome State Fault Refusal := whenReady clearActions s

/-- HOME (R141). -/
def execHome (s : State) : Host.Outcome State Fault Refusal := whenReady homeActions s

end Sys2Proof.Machine
end

