-- ==== Sys2Proof/Machine/Cursor.lean ====
section
/-! DEFINITION. SET_CURSOR (44_set_cursor.md R160 to R163). -/

namespace Sys2Proof.Machine

/-- Clamp the row, look up its base, add the column, force bit 7, send (R160). -/
def setCursorActions (col row : Byte) : List Action := send (cursorCommand col row) config.modeInstr

/-- SET_CURSOR (R160). -/
def execSetCursor (col row : Byte) (s : State) : Host.Outcome State Fault Refusal :=
  whenReady (setCursorActions col row) s

end Sys2Proof.Machine
end

