-- ==== Sys2Proof/Machine/Init.lean ====
section
/-! DEFINITION. INIT (40_init.md R110, R111). -/

namespace Sys2Proof.Machine

/-- The power-on wait, RS low, and the resynchronization: 0x3 three times and 0x2 once, as lone nibbles
(R110, R113). -/
def resyncActions : List Action :=
  [.delayUs config.tPowerOn, .gpioWrite .rs false] ++
  transmitNibble config.nibResync ++ [.delayUs config.tResync1] ++
  transmitNibble config.nibResync ++ [.delayUs config.tResync2] ++
  transmitNibble config.nibResync ++ [.delayUs config.tResync3] ++
  transmitNibble config.nibCommit

/-- Function set, display control, clear, entry mode; `ctrl` and `mode` are assigned whole, each just before
it is sent (R110). -/
def configureActions : List Action :=
  send (functionCommand config.fn2Line) config.modeInstr ++
  .setShadow .ctrl config.dispOn :: send (displayCommand config.dispOn) config.modeInstr ++
  send config.cmdClear config.modeInstr ++
  .delayUs config.tClearHome :: .setShadow .mode config.entryLeft ::
  send (entryCommand config.entryLeft) config.modeInstr

/-- The initialization sequence (R110). -/
def initActions (rs en d4 d5 d6 d7 : PinId) : List Action :=
  .setPins ⟨rs, en, d4, d5, d6, d7⟩ :: .setShadow .fn config.fn2Line ::
    (resyncActions ++ (configureActions ++ [.setPhase .ready]))

/-- INIT (R110). -/
def execInit (rs en d4 d5 d6 d7 : PinId) (s : State) : Host.Outcome State Fault Refusal :=
  whenUninitialized (initActions rs en d4 d5 d6 d7) s

end Sys2Proof.Machine
end

