-- ==== Sys2Proof/Machine/Shift.lean ====
section
/-! DEFINITION. SHIFT_LEFT and SHIFT_RIGHT (43_shift.md R150 to R152): no shadow register is read or
written. -/

namespace Sys2Proof.Machine

/-- `SEND(CMD_SHIFT | SHIFT_DISPLAY, 0)` (R150). -/
def shiftLeftActions : List Action := send shiftLeftCommand config.modeInstr

/-- `SEND(CMD_SHIFT | SHIFT_DISPLAY | SHIFT_DIR_RIGHT, 0)` (R151). -/
def shiftRightActions : List Action := send shiftRightCommand config.modeInstr

/-- SHIFT_LEFT (R150). -/
def execShiftLeft (s : State) : Host.Outcome State Fault Refusal := whenReady shiftLeftActions s

/-- SHIFT_RIGHT (R151). -/
def execShiftRight (s : State) : Host.Outcome State Fault Refusal := whenReady shiftRightActions s

end Sys2Proof.Machine
end

