-- ==== Sys2Proof/Machine/Toggles.lean ====
section
/-! DEFINITION. The ten mode operations (41_mode_toggles.md R120 to R130): the register is updated
first, then the updated value is sent whole. -/

namespace Sys2Proof.Machine

/-- `ctrl <- v; SEND(CMD_DISPLAY | v, 0)` (R120). -/
def changeDisplay (v : Byte) : List Action :=
  .setShadow .ctrl v :: send (displayCommand v) config.modeInstr

/-- `mode <- v; SEND(CMD_ENTRY | v, 0)` (R120). -/
def changeEntry (v : Byte) : List Action :=
  .setShadow .mode v :: send (entryCommand v) config.modeInstr

/-- R121. -/
def displayOnActions (s : State) : List Action := changeDisplay (setFlag s.ctrl config.dispOn)
/-- R122. -/
def displayOffActions (s : State) : List Action := changeDisplay (clearFlag s.ctrl config.dispOn)
/-- R123. -/
def cursorOnActions (s : State) : List Action := changeDisplay (setFlag s.ctrl config.dispCursor)
/-- R124. -/
def cursorOffActions (s : State) : List Action := changeDisplay (clearFlag s.ctrl config.dispCursor)
/-- R125. -/
def blinkOnActions (s : State) : List Action := changeDisplay (setFlag s.ctrl config.dispBlink)
/-- R126. -/
def blinkOffActions (s : State) : List Action := changeDisplay (clearFlag s.ctrl config.dispBlink)
/-- R127. -/
def autoscrollOnActions (s : State) : List Action := changeEntry (setFlag s.mode config.entryAutoscroll)
/-- R128. -/
def autoscrollOffActions (s : State) : List Action := changeEntry (clearFlag s.mode config.entryAutoscroll)
/-- R129. -/
def leftToRightActions (s : State) : List Action := changeEntry (setFlag s.mode config.entryLeft)
/-- R130. -/
def rightToLeftActions (s : State) : List Action := changeEntry (clearFlag s.mode config.entryLeft)

/-- DISPLAY_ON (R121). -/
def execDisplayOn (s : State) : Host.Outcome State Fault Refusal := whenReady (displayOnActions s) s
/-- DISPLAY_OFF (R122). -/
def execDisplayOff (s : State) : Host.Outcome State Fault Refusal := whenReady (displayOffActions s) s
/-- CURSOR_ON (R123). -/
def execCursorOn (s : State) : Host.Outcome State Fault Refusal := whenReady (cursorOnActions s) s
/-- CURSOR_OFF (R124). -/
def execCursorOff (s : State) : Host.Outcome State Fault Refusal := whenReady (cursorOffActions s) s
/-- BLINK_ON (R125). -/
def execBlinkOn (s : State) : Host.Outcome State Fault Refusal := whenReady (blinkOnActions s) s
/-- BLINK_OFF (R126). -/
def execBlinkOff (s : State) : Host.Outcome State Fault Refusal := whenReady (blinkOffActions s) s
/-- AUTOSCROLL_ON (R127). -/
def execAutoscrollOn (s : State) : Host.Outcome State Fault Refusal := whenReady (autoscrollOnActions s) s
/-- AUTOSCROLL_OFF (R128). -/
def execAutoscrollOff (s : State) : Host.Outcome State Fault Refusal := whenReady (autoscrollOffActions s) s
/-- LEFT_TO_RIGHT (R129). -/
def execLeftToRight (s : State) : Host.Outcome State Fault Refusal := whenReady (leftToRightActions s) s
/-- RIGHT_TO_LEFT (R130). -/
def execRightToLeft (s : State) : Host.Outcome State Fault Refusal := whenReady (rightToLeftActions s) s

end Sys2Proof.Machine
end

