-- ==== Sys2Proof/Machine/Write.lean ====
section
/-! DEFINITION. WRITE_CHAR (45_write.md R170): the one operation that sends with RS = 1. -/

namespace Sys2Proof.Machine

/-- `SEND(c, 1)` (R170). -/
def writeCharActions (c : Byte) : List Action := send c config.modeData

/-- WRITE_CHAR (R170). -/
def execWriteChar (c : Byte) (s : State) : Host.Outcome State Fault Refusal := whenReady (writeCharActions c) s

end Sys2Proof.Machine
end

