-- ==== Sys2Proof/Machine/Stepped.lean ====
section
/-! DEFINITION. The same requests run one event a step (00_scope.md R13, 10_state.md R30, R33): a
request taken at this pace becomes the operation in progress, so that a reset can land between any two
of its events (70_reset_and_hazards.md R230, R244). Log entries 5 and 6. -/

namespace Sys2Proof.Machine

/-- The actions of a request accepted in a state. -/
def operationActions (i : Instr) (s : State) : List Action :=
  match i with
  | .init rs en d4 d5 d6 d7 => initActions rs en d4 d5 d6 d7
  | .clear => clearActions
  | .home => homeActions
  | .displayOn => displayOnActions s
  | .displayOff => displayOffActions s
  | .cursorOn => cursorOnActions s
  | .cursorOff => cursorOffActions s
  | .blinkOn => blinkOnActions s
  | .blinkOff => blinkOffActions s
  | .autoscrollOn => autoscrollOnActions s
  | .autoscrollOff => autoscrollOffActions s
  | .leftToRight => leftToRightActions s
  | .rightToLeft => rightToLeftActions s
  | .shiftLeft => shiftLeftActions
  | .shiftRight => shiftRightActions
  | .setCursor col row => setCursorActions col row
  | .writeChar c => writeCharActions c

/-- The reason a request is refused in a state, if it is (R202, R216). -/
def refusalOf (i : Instr) (s : State) : Option RefuseReason :=
  if reqReady s then
    match i, s.phase with
    | .init .., .uninitialized => none
    | .init .., .ready => some .initWhenReady
    | _, .uninitialized => some .beforeInit
    | _, .ready => none
  else some .interleaved

/-- Accept a request at the stepped pace: its position is 0, no event is emitted yet (R30). -/
def startStepped (i : Instr) (s : State) : State :=
  match refusalOf i s with
  | some r => refuse r s
  | none => { s with pending := operationActions i s }

/-- An accepted request word (R94, R210): decode, then the phase check, then the operation; a reserved
word is refused (R85). -/
def accept (pace : Pace) (w : RequestWord) (s : State) : Host.Outcome State Fault Refusal :=
  match decode w with
  | .error _ => .next (refuse (.reservedRequest w) s)
  | .ok i =>
    match pace with
    | .whole => exec i s
    | .stepped => .next (startStepped i s)

end Sys2Proof.Machine
end

