-- ==== Sys2Proof/Machine/Step.lean ====
section
/-! DEFINITION. One step of the transmitter (30_encoding.md R81, 60_exceptions.md R210, R216). -/

namespace Sys2Proof.Machine

/-- One step: the next input is taken from the port. Reset has priority over everything (R210, R230);
a request is accepted when no operation is in progress and ignored otherwise (R81); a second
requester does not wait (R57); an operation in progress emits its next event (R30). With nothing
driven and nothing in progress the machine stays as it is. -/
def step (s : State) : Host.Outcome State Fault Refusal :=
  match s.port with
  | [] => .next (advance s)
  | .idle :: rest => .next (advance { s with port := rest })
  | .reset :: rest => .next (hardwareReset { s with port := rest })
  | .rival w :: rest => accept .whole w { s with port := rest }
  | .request pace w :: rest =>
    if reqReady s then accept pace w { s with port := rest }
    else .next (advance { s with port := rest })

/-- The state with this request word as the next thing the host drives, and nothing in progress, so
that the very next step accepts and runs it (log entry 8). -/
def State.withFetchWord (s : State) (nbits w : Nat) : State :=
  { s with pending := [], port := .request .whole (tableWord nbits w) :: s.port }

end Sys2Proof.Machine
end

