-- ==== Sys2Proof/Machine/Observe.lean ====
section
/-! DEFINITION. What is read off a trace: the latch it leaves (10_state.md R28), the beats and bytes the
controller receives (46_send.md R186, R187), its pulses (R185) and its minimum duration
(70_reset_and_hazards.md R250, R252). Nothing in the machine reads these. -/

namespace Sys2Proof.Machine

/-- The latch after one more event (R28). -/
def latchEvent (lv : Levels) : Event → Levels
  | .P p l => writeLevel lv p l
  | .W _ => lv

/-- The latch after the events of a trace, from a given latch (R28). -/
def replay (lv : Levels) (es : List Event) : Levels := es.foldl latchEvent lv

/-- One nibble latched by the controller at a falling edge of EN (R186). -/
structure Beat where
  rs : Level
  nibble : Nibble
  deriving DecidableEq, Repr

/-- A byte on the bus with its register-select level (R187). -/
structure BusByte where
  rs : Level
  byte : Byte
  deriving DecidableEq, Repr

/-- The pairwise distinctness the beat list needs (R22, R186). -/
def pinsDistinct (a : PinAssignment) : Bool :=
  decide [a.rs, a.en, a.d4, a.d5, a.d6, a.d7].Nodup

/-- The five levels as the controller samples them; `none` if one of them is unknown (R28, R186). -/
def sample (a : PinAssignment) (lv : Levels) : Option Beat :=
  match readLevel lv a.rs, readLevel lv a.d7, readLevel lv a.d6, readLevel lv a.d5, readLevel lv a.d4 with
  | some m, some b3, some b2, some b1, some b0 => some ⟨m, nibbleOfBits b3 b2 b1 b0⟩
  | _, _, _, _, _ => none

/-- The event is `P(pin.EN, 0)` and finds EN at 1 (R186); EN at 0 or unknown records nothing. -/
def isFall (a : PinAssignment) (lv : Levels) : Event → Bool
  | .P p l => decide (p = a.en) && !l && decide (readLevel lv a.en = some true)
  | .W _ => false

/-- The beats of a trace from a given latch (R186). -/
def beatsFrom (a : PinAssignment) : Levels → List Event → Option (List Beat)
  | _, [] => some []
  | lv, e :: es =>
    if isFall a lv e then
      match sample a lv, beatsFrom a (latchEvent lv e) es with
      | some b, some bs => some (b :: bs)
      | _, _ => none
    else beatsFrom a (latchEvent lv e) es

/-- The beat list of a trace since reset; `none` where R186 does not define it: pin identifiers that
are not distinct, or (log entry 13) a latched level that is unknown. -/
def beats (a : PinAssignment) (trace : List Event) : Option (List Beat) :=
  if pinsDistinct a then beatsFrom a [] trace else none

/-- Pairs of beats of one RS level as bytes, high nibble first (R187). -/
def bytesOfBeats : List Beat → Option (List BusByte)
  | [] => some []
  | [_] => none
  | h :: l :: rest =>
    if h.rs = l.rs then
      match bytesOfBeats rest with
      | some bs => some (⟨h.rs, h.nibble ++ l.nibble⟩ :: bs)
      | none => none
    else none

/-- INIT's four lone beats (R112, R187). -/
def loneBeats : List Beat :=
  [⟨false, 0x3#4⟩, ⟨false, 0x3#4⟩, ⟨false, 0x3#4⟩, ⟨false, 0x2#4⟩]

/-- The byte stream of a run since reset (R187): INIT's four lone beats, then pairs. R187 speaks of whole
INITs; a run seen inside INIT's resynchronization, with one to three lone beats so far, has no byte stream
(`none`), even where two of them would pair: DESIGN CHOICE, log entry 13. -/
def byteStream (a : PinAssignment) (trace : List Event) : Option (List BusByte) :=
  match beats a trace with
  | none => none
  | some [] => some []
  | some bs => if bs.take 4 = loneBeats then bytesOfBeats (bs.drop 4) else none

/-- How many times a level is written to a pin. -/
def writesOf (p : PinId) (l : Level) (es : List Event) : Nat := es.count (.P p l)

/-- No write to RS or a data line while EN is at 1 (R67), from a given latch. -/
def steadyWhileHigh (a : PinAssignment) : Levels → List Event → Bool
  | _, [] => true
  | lv, e :: es =>
    (match e with
     | .P p _ => decide (p = a.en) || !decide (readLevel lv a.en = some true)
     | .W _ => true) && steadyWhileHigh a (latchEvent lv e) es

/-- The wait of an event, microseconds (R250); pin writes count as taking no time. -/
def waitOf : Event → Nat
  | .P _ _ => 0
  | .W n => n

/-- The minimum duration of a trace: the sum of its waits (R250). -/
def minDuration (es : List Event) : Nat := (es.map waitOf).sum

/-- The least number of clock periods of a wait of `n` microseconds: `ceil(n * CLK_HZ / 1000000)`
(R217, R252). -/
def clockPeriods (n : Nat) : Nat := (n * config.clkHz + 999999) / 1000000

end Sys2Proof.Machine
end

