-- ==== Sys2Proof/Machine/Pseudo.lean ====
section
/-! DEFINITION. The host-side pseudo-operations (30_encoding.md R93, 45_write.md R171 to R174): they
expand to WRITE_CHAR requests and have no request code. -/

namespace Sys2Proof.Machine

/-- Why a pseudo-operation has no expansion: a host defect (U14, U4). -/
inductive ExpandRejection where
  /-- The string holds no terminator (U14). -/
  | unterminated
  /-- The number does not fit the formatting buffer (R174, U4). -/
  | formatOverflow
  deriving DecidableEq, Repr

/-- WRITE_STRING (R171): one WRITE_CHAR per byte before the first terminator, which is not sent. -/
def writeString : List Byte → Except ExpandRejection (List Instr)
  | [] => .error .unterminated
  | c :: rest =>
    if c = config.strTerminator then .ok []
    else
      match writeString rest with
      | .ok is => .ok (.writeChar c :: is)
      | .error e => .error e

/-- `FmtInt`: external, with the single constraint `FmtInt(42)` = "42" (R172, D23). That `n` is an unbounded
signed number is a DESIGN CHOICE, log entry 15: its width and sign are not in the source (N8). -/
def fmtInt (n : Int) : Option (List Byte) :=
  if n = 42 then some [0x34#8, 0x32#8] else Config.openFmtInt n

/-- The text a formatter gives, as a terminated string for WRITE_STRING. -/
def writeFormatted : Option (List Byte) → Except ExpandRejection (List Instr)
  | none => .error .formatOverflow
  | some text => writeString (text ++ [config.strTerminator])

/-- WRITE_INT (R172); the type of `n` is a DESIGN CHOICE, log entry 15. -/
def writeInt (n : Int) : Except ExpandRejection (List Instr) := writeFormatted (fmtInt n)

/-- WRITE_FLOAT (R173). -/
def writeFloat (x : Config.FloatValue) : Except ExpandRejection (List Instr) :=
  writeFormatted (Config.fmtFloat x)

/-- The host issuing requests one after another, each run whole (R14). -/
def requests (is : List Instr) : List PortInput := is.map (fun i => .request .whole (encode i))

end Sys2Proof.Machine
end

