-- ==== Sys2Proof/WellFormed.lean ====
section
/-! DEFINITION. What the host owes the transmitter in its requests (10_state.md R22, 40_init.md R114,
70_reset_and_hazards.md R233). The transmitter checks none of it (60_exceptions.md R207): these are
premises a claim may take, never checks that a meaning makes. -/

namespace Sys2Proof

/-- The six identifiers are pairwise distinct (R22). -/
def distinctPins (rs en d4 d5 d6 d7 : PinId) : Bool :=
  decide [rs, en, d4, d5, d6, d7].Nodup

/-- A request as the host must form it: INIT's six pin identifiers are pairwise distinct (R22,
R233.2); every operand byte of the others is allowed (R84, R162, R207). -/
def Instr.wellFormed : Instr → Bool
  | .init rs en d4 d5 d6 d7 => distinctPins rs en d4 d5 d6 d7
  | .clear => true
  | .home => true
  | .displayOn => true
  | .displayOff => true
  | .cursorOn => true
  | .cursorOff => true
  | .blinkOn => true
  | .blinkOff => true
  | .autoscrollOn => true
  | .autoscrollOff => true
  | .leftToRight => true
  | .rightToLeft => true
  | .shiftLeft => true
  | .shiftRight => true
  | .setCursor _ _ => true
  | .writeChar _ => true

/-- The request is INIT. -/
def Instr.isInit : Instr → Bool
  | .init .. => true
  | .clear => false
  | .home => false
  | .displayOn => false
  | .displayOff => false
  | .cursorOn => false
  | .cursorOff => false
  | .blinkOn => false
  | .blinkOff => false
  | .autoscrollOn => false
  | .autoscrollOff => false
  | .leftToRight => false
  | .rightToLeft => false
  | .shiftLeft => false
  | .shiftRight => false
  | .setCursor _ _ => false
  | .writeChar _ => false

/-- A host's requests after reset, as R233.4 and R114 demand them: INIT first and exactly once, each
request well formed. -/
def wellFormedRun : List Instr → Bool
  | [] => true
  | i :: rest => i.isInit && i.wellFormed && rest.all (fun j => !j.isInit && j.wellFormed)

end Sys2Proof
end

