-- ==== Sys2Proof/Safety.lean ====
section
/-! DEFINITION. What counts as a good run, the machine's invariant, and the words the statements are
written in: the events, bytes and register values of the spec's rules, written out from their literal
lists and independent of the machine's own functions. -/

namespace Sys2Proof.Machine

/-- Nothing was refused: the premise every claim about a run takes (60_exceptions.md R203). -/
def clean (s : State) : Bool := !s.refused

/-- The state the operation in progress ends in (R209: only reset stops it). -/
def settled (s : State) : State := { perform s.pending s with pending := [] }

/-- R37, R234: what holds in phase Ready. -/
def readyOk (s : State) : Prop :=
  s.phase = .ready →
    s.fn = 0x08#8 ∧ s.ctrl.toNat ≤ 7 ∧ s.mode.toNat ≤ 3 ∧ readLevel s.level s.pin.en = some false

/-- The invariant every step keeps: the latch is canonical (log entry 12) and is what the trace leaves
(R28), the mark stands exactly when a refusal is recorded (log entry 9), and the state the operation in progress
ends in has the values of R37 and EN low (R234). -/
structure Inv (s : State) : Prop where
  canonical : levelsWf s.level = true
  faithful : s.level = replay [] s.trace
  marked : s.refused = !s.refusals.isEmpty
  ready : readyOk (settled s)

/-- The six events of an enable pulse (R180). -/
def pulseEvents (a : PinAssignment) : List Event :=
  [.P a.en false, .W 1, .P a.en true, .W 1, .P a.en false, .W 100]

/-- `NIB(n[3] n[2] n[1] n[0])`: the ten events of a nibble (R111, R181). -/
def nibEvents (a : PinAssignment) (n : Nibble) : List Event :=
  [.P a.d4 (n.getLsbD 0), .P a.d5 (n.getLsbD 1), .P a.d6 (n.getLsbD 2), .P a.d7 (n.getLsbD 3),
   .P a.en false, .W 1, .P a.en true, .W 1, .P a.en false, .W 100]

/-- The twenty-one events of a byte (R182). -/
def sendEvents (a : PinAssignment) (v : Byte) (m : Level) : List Event :=
  [.P a.rs m,
   .P a.d4 (v.getLsbD 4), .P a.d5 (v.getLsbD 5), .P a.d6 (v.getLsbD 6), .P a.d7 (v.getLsbD 7),
   .P a.en false, .W 1, .P a.en true, .W 1, .P a.en false, .W 100,
   .P a.d4 (v.getLsbD 0), .P a.d5 (v.getLsbD 1), .P a.d6 (v.getLsbD 2), .P a.d7 (v.getLsbD 3),
   .P a.en false, .W 1, .P a.en true, .W 1, .P a.en false, .W 100]

/-- Rows 1 to 9 of R111's table: the power-on wait, RS low, the four lone nibbles and their waits. -/
def resyncEvents (a : PinAssignment) : List Event :=
  [.W 40000, .P a.rs false] ++
  nibEvents a 0b0011#4 ++ [.W 4100] ++
  nibEvents a 0b0011#4 ++ [.W 4100] ++
  nibEvents a 0b0011#4 ++ [.W 150] ++
  nibEvents a 0b0010#4

/-- Rows 10 to 14 of R111's table: function set, display control, clear and its wait, entry mode. -/
def configureEvents (a : PinAssignment) : List Event :=
  .P a.rs false :: nibEvents a 0b0010#4 ++ nibEvents a 0b1000#4 ++
  .P a.rs false :: nibEvents a 0b0000#4 ++ nibEvents a 0b1100#4 ++
  .P a.rs false :: nibEvents a 0b0000#4 ++ nibEvents a 0b0001#4 ++
  .W 2000 :: .P a.rs false :: nibEvents a 0b0000#4 ++ nibEvents a 0b0110#4

/-- The 130 events of INIT, the fourteen rows of R111's table. -/
def initEvents (a : PinAssignment) : List Event := resyncEvents a ++ configureEvents a

/-- The state after these events were emitted and nothing else changed (R9, R10, R28, R29). -/
def afterEvents (s : State) (es : List Event) : State :=
  { s with trace := s.trace ++ es, level := replay s.level es }

/-- After `ctrl <- v; SEND(0x08 | v, 0)` (R120). -/
def afterDisplay (s : State) (v : Byte) : State :=
  { afterEvents s (sendEvents s.pin (0x08#8 ||| v) false) with ctrl := v }

/-- After `mode <- v; SEND(0x04 | v, 0)` (R120). -/
def afterEntry (s : State) (v : Byte) : State :=
  { afterEvents s (sendEvents s.pin (0x04#8 ||| v) false) with mode := v }

/-- After `SEND(v, 0)`. -/
def afterCommand (s : State) (v : Byte) : State := afterEvents s (sendEvents s.pin v false)

/-- Words with this `op` are this request, whatever their operand bytes (R82, R94). -/
def HasCode (op : Byte) (i : Instr) : Prop := ∀ w, opOf w = op → decode w = .ok i

/-- In phase Uninitialized the request is refused: no event, no register, pin or phase changes; only
the mark and what it records do (R203, R204). -/
def RefusedBeforeInit (i : Instr) : Prop :=
  ∀ s, reqReady s = true → s.phase = .uninitialized →
    ∃ log, exec i s = .next { s with refused := true, refusals := log }

/-- The request completes in every idle Ready state, with exactly this effect. -/
def Completes (i : Instr) (effect : State → State) : Prop :=
  ∀ s, reqReady s = true → s.phase = .ready → exec i s = .next (effect s)

/-- The address of SET_CURSOR's rule: row 0 has base 0x00, every other row is clamped to row 1, whose
base is 0x40; the sum is modulo 256 (R160, R161). -/
def ddramAddress (col row : Byte) : Byte := col + if row = 0#8 then 0x00#8 else 0x40#8

/-- `ctrl` and `mode` after an operation (R87, the column of the shadow update). -/
def shadowsAfter : Instr → Byte × Byte → Byte × Byte
  | .init .., _ => (0x04#8, 0x02#8)
  | .displayOn, (c, m) => (c ||| 0x04#8, m)
  | .displayOff, (c, m) => (c &&& 0xFB#8, m)
  | .cursorOn, (c, m) => (c ||| 0x02#8, m)
  | .cursorOff, (c, m) => (c &&& 0xFD#8, m)
  | .blinkOn, (c, m) => (c ||| 0x01#8, m)
  | .blinkOff, (c, m) => (c &&& 0xFE#8, m)
  | .autoscrollOn, (c, m) => (c, m ||| 0x01#8)
  | .autoscrollOff, (c, m) => (c, m &&& 0xFE#8)
  | .leftToRight, (c, m) => (c, m ||| 0x02#8)
  | .rightToLeft, (c, m) => (c, m &&& 0xFD#8)
  | .clear, x => x
  | .home, x => x
  | .shiftLeft, x => x
  | .shiftRight, x => x
  | .setCursor _ _, x => x
  | .writeChar _, x => x

/-- The bytes an operation sends, from `ctrl` and `mode` before it (R87). -/
def bytesSent (i : Instr) (x : Byte × Byte) : List BusByte :=
  match i with
  | .init .. => [⟨false, 0x28#8⟩, ⟨false, 0x0C#8⟩, ⟨false, 0x01#8⟩, ⟨false, 0x06#8⟩]
  | .displayOn | .displayOff | .cursorOn | .cursorOff | .blinkOn | .blinkOff =>
    [⟨false, 0x08#8 ||| (shadowsAfter i x).1⟩]
  | .autoscrollOn | .autoscrollOff | .leftToRight | .rightToLeft =>
    [⟨false, 0x04#8 ||| (shadowsAfter i x).2⟩]
  | .clear => [⟨false, 0x01#8⟩]
  | .home => [⟨false, 0x02#8⟩]
  | .shiftLeft => [⟨false, 0x18#8⟩]
  | .shiftRight => [⟨false, 0x1C#8⟩]
  | .setCursor col row => [⟨false, 0x80#8 ||| ddramAddress col row⟩]
  | .writeChar c => [⟨true, c⟩]

/-- The bytes a list of operations sends, one operation after another. -/
def bytesOfRun : List Instr → Byte × Byte → List BusByte
  | [], _ => []
  | i :: is, x => bytesSent i x ++ bytesOfRun is (shadowsAfter i x)

/-- The waits an operation adds after its last byte (R142). -/
def waitsAfter : Instr → List Event
  | .clear | .home => [.W 2000]
  | .init .. | .displayOn | .displayOff | .cursorOn | .cursorOff | .blinkOn | .blinkOff => []
  | .autoscrollOn | .autoscrollOff | .leftToRight | .rightToLeft => []
  | .shiftLeft | .shiftRight | .setCursor _ _ | .writeChar _ => []

/-- Every `P(EN,1)` is immediately preceded by `P(EN,0) W(1)` and immediately followed by
`W(1) P(EN,0) W(100)` (R185). -/
def PulsesAreWhole (en : PinId) (es : List Event) : Prop :=
  ∀ before after : List Event, es = before ++ .P en true :: after →
    (∃ b, before = b ++ [.P en false, .W 1]) ∧ ∃ a, after = [.W 1, .P en false, .W 100] ++ a

/-- The ten mode operations (R120). -/
def modeOperations : List Instr :=
  [.displayOn, .displayOff, .cursorOn, .cursorOff, .blinkOn, .blinkOff,
   .autoscrollOn, .autoscrollOff, .leftToRight, .rightToLeft]

/-- The five pairs of a setting and a clearing operation (R121 to R130, R132). -/
def setClearPairs : List (Instr × Instr) :=
  [(.displayOn, .displayOff), (.cursorOn, .cursorOff), (.blinkOn, .blinkOff),
   (.autoscrollOn, .autoscrollOff), (.leftToRight, .rightToLeft)]

/-- The bit of the pair (`ctrl`, `mode`) a mode operation sets or clears, by register and mask (R121 to
R130); `none` for every other operation. -/
def modeBit : Instr → Option (Shadow × Byte)
  | .displayOn | .displayOff => some (.ctrl, 0x04#8)
  | .cursorOn | .cursorOff => some (.ctrl, 0x02#8)
  | .blinkOn | .blinkOff => some (.ctrl, 0x01#8)
  | .autoscrollOn | .autoscrollOff => some (.mode, 0x01#8)
  | .leftToRight | .rightToLeft => some (.mode, 0x02#8)
  | .init .. | .clear | .home | .shiftLeft | .shiftRight | .setCursor _ _ | .writeChar _ => none

end Sys2Proof.Machine
end

