-- ==== Sys2Proof/Certificates/Slice0/Obligations.lean ====
section
/-! DEFINITION. The statements for the provers. Each docstring names the rule of spec/ it formalises.
Fields of `State` that are the model's own (`port`, log entry 4; `refusals`, log entry 9; `pending` at
the grain of log entry 6) are named as such where a statement speaks of them. -/

open Sys2Proof Sys2Proof.Machine

/-- A request word driven while no operation is in progress is accepted (R81), decoded (R94) and run as its
instruction; the step adds only that the input leaves the port (the port list is the model's, log entry 4).
-/
def Obligations.AcceptedWordRunsItsInstruction : Prop :=
  ∀ (s : State) (w : RequestWord) (rest : List PortInput) (i : Instr),
    s.port = .request .whole w :: rest → reqReady s = true → decode w = .ok i →
      step s = exec i { s with port := rest }

/-- A request driven while an operation is in progress is ignored (R81): the operation emits its next event,
and nothing else changes than with no request at all. -/
def Obligations.BusyTransmitterIgnoresRequests : Prop :=
  ∀ (s : State) (pace : Pace) (w : RequestWord) (rest : List PortInput),
    s.port = .request pace w :: rest → reqReady s = false →
      step s = step { s with port := .idle :: rest }

/-- An accepted word whose `op` is 0x00 or 0x12 to 0xFF is refused `ReservedRequest`, in either phase (R85,
R206, R216): only the mark and the record change, and the record holds the word (R202). That the record is
an entry of `refusals` is the model's choice (log entry 9). -/
def Obligations.ReservedWordIsRefusedWithItsWord : Prop :=
  ∀ (s : State) (pace : Pace) (w : RequestWord) (rest : List PortInput),
    s.port = .request pace w :: rest → reqReady s = true →
    (opOf w = 0x00#8 ∨ 0x12 ≤ (opOf w).toNat) →
      step s = .next { s with
        port := rest, refused := true, refusals := s.refusals ++ [.reservedRequest w] }

/-- Decode and encode agree on every instruction, with every operand at every value (R82, R83, R94). -/
def Obligations.DecodeOfEncodeIsTheInstruction : Prop :=
  ∀ i : Instr, decode (encode i) = .ok i

/-- The other direction: the word an assembler writes for the instruction a word decodes to has the same
`op` and the same operand bytes where the row of R83 names them, and 0 elsewhere (R82). -/
def Obligations.EncodeOfDecodeKeepsOpAndOperands : Prop :=
  ∀ (w : RequestWord) (i : Instr), decode w = .ok i →
    opOf (encode i) = opOf w ∧
    a0Of (encode i) = (if 1 ≤ i.operandBytes then a0Of w else 0#8) ∧
    a1Of (encode i) = (if 2 ≤ i.operandBytes then a1Of w else 0#8) ∧
    a2Of (encode i) = (if 3 ≤ i.operandBytes then a2Of w else 0#8) ∧
    a3Of (encode i) = (if 4 ≤ i.operandBytes then a3Of w else 0#8) ∧
    a4Of (encode i) = (if 5 ≤ i.operandBytes then a4Of w else 0#8) ∧
    a5Of (encode i) = (if 6 ≤ i.operandBytes then a5Of w else 0#8)

/-- Exactly the codes 0x00 and 0x12 to 0xFF select no operation (R85), and the rejection names the code. -/
def Obligations.ReservedCodesAreExactlyTheRejectedOnes : Prop :=
  ∀ w : RequestWord,
    ((opOf w = 0x00#8 ∨ 0x12 ≤ (opOf w).toNat) ↔ ∃ e, decode w = .error e) ∧
    ∀ e, decode w = .error e → e = .reservedOp (opOf w)

/-- Request words of the spec's examples decode to the requests they stand for (R92, R110, R160, R170). -/
def Obligations.SpecExampleWordsDecode : Prop :=
  decode 0x01010203040506#56 = .ok (.init 1#8 2#8 3#8 4#8 5#8 6#8) ∧
  decode 0x02000000000000#56 = .ok .clear ∧
  decode 0x05000000000000#56 = .ok .displayOff ∧
  decode 0x0D000000000000#56 = .ok .rightToLeft ∧
  decode 0x0F000000000000#56 = .ok .shiftRight ∧
  decode 0x10050100000000#56 = .ok (.setCursor 5#8 1#8) ∧
  decode 0x11480000000000#56 = .ok (.writeChar 0x48#8) ∧
  decode 0x1148FFFFFFFFFF#56 = .ok (.writeChar 0x48#8)

/-- After reset: phase Uninitialized, every level unknown, the trace empty, nothing refused, ready for a
request (R35). The unspecified registers are not spoken of. -/
def Obligations.ResetStateIsUninitialized : Prop :=
  State.reset.phase = .uninitialized ∧
  (∀ p, readLevel State.reset.level p = none) ∧
  State.reset.trace = [] ∧ State.reset.refused = false ∧ reqReady State.reset = true

/-- `rst` at any state, an operation in progress or not, ends in the values of R35: the operation is
abandoned, no event is emitted, the mark is cleared, `req_ready` is 0 while `rst` is asserted, and the
machine is ready for a request after it (R230, R231). The inputs still to come are the outside's (log entry
4). -/
def Obligations.HardwareResetAbandonsWhateverRuns : Prop :=
  ∀ (s : State) (rest : List PortInput), s.port = .reset :: rest →
    reqReadyOutput s = false ∧
    ∃ t, step s = .next t ∧ t.phase = .uninitialized ∧ (∀ p, readLevel t.level p = none) ∧
      t.trace = [] ∧ t.refused = false ∧ reqReady t = true ∧ t.port = rest

/-- ENABLE_PULSE appends its six events, in that order, whatever EN was, at least 102 us, and changes
nothing but the latch and the trace (R180). -/
def Obligations.EnablePulseEmitsItsSixEvents : Prop :=
  (∀ s : State, perform enablePulse s =
    afterEvents s [.P s.pin.en false, .W 1, .P s.pin.en true, .W 1, .P s.pin.en false, .W 100]) ∧
  ∀ a, minDuration (pulseEvents a) = 102

/-- TRANSMIT_NIBBLE: bit i on D(4+i), all four lines written, then the pulse; RS is not written (R181). -/
def Obligations.TransmitNibbleEmitsItsTenEvents : Prop :=
  ∀ (s : State) (n : Nibble), perform (transmitNibble n) s =
    afterEvents s
      ([.P s.pin.d4 (n.getLsbD 0), .P s.pin.d5 (n.getLsbD 1),
        .P s.pin.d6 (n.getLsbD 2), .P s.pin.d7 (n.getLsbD 3)] ++ pulseEvents s.pin)

/-- SEND: RS once, then the high nibble, then the low nibble, 21 events, at least 204 us; no shadow register
is read (R182). -/
def Obligations.SendEmitsItsTwentyOneEvents : Prop :=
  ∀ (s : State) (v : Byte) (m : Level),
    perform (send v m) s = afterEvents s (sendEvents s.pin v m) ∧
    (sendEvents s.pin v m).length = 21 ∧ minDuration (sendEvents s.pin v m) = 204

/-- INIT (R110): its code; in phase Uninitialized it runs, whatever the pin identifiers, to phase Ready with
the pin registers, `fn`, `ctrl` and `mode` as stated, appending the 130 events of R111, which last at least
51574 us; in phase Ready it is refused. -/
def Obligations.InitRunsTheInitializationSequence : Prop :=
  (∀ w, opOf w = 0x01#8 → decode w = .ok (.init (a0Of w) (a1Of w) (a2Of w) (a3Of w) (a4Of w) (a5Of w))) ∧
  (∀ (rs en d4 d5 d6 d7 : PinId) (s : State), reqReady s = true → s.phase = .uninitialized →
    exec (.init rs en d4 d5 d6 d7) s = .next { s with
      pin := ⟨rs, en, d4, d5, d6, d7⟩, fn := 0x08#8, ctrl := 0x04#8, mode := 0x02#8, phase := .ready,
      trace := s.trace ++ initEvents ⟨rs, en, d4, d5, d6, d7⟩,
      level := replay s.level (initEvents ⟨rs, en, d4, d5, d6, d7⟩) }) ∧
  (∀ a, (initEvents a).length = 130 ∧ minDuration (initEvents a) = 51574) ∧
  (∀ (rs en d4 d5 d6 d7 : PinId) (s : State), reqReady s = true → s.phase = .ready →
    ∃ log, exec (.init rs en d4 d5 d6 d7) s = .next { s with refused := true, refusals := log })

/-- What INIT leaves does not depend on the registers that are unspecified before it (R35): two states that
differ only in the pin-assignment and shadow registers end in the same state. So no claim about a run rests
on the values log entry 2 names. -/
def Obligations.InitForgetsTheUnspecifiedRegisters : Prop :=
  ∀ (s : State) (a : PinAssignment) (f c m : Byte) (rs en d4 d5 d6 d7 : PinId),
    reqReady s = true → s.phase = .uninitialized →
      exec (.init rs en d4 d5 d6 d7) { s with pin := a, fn := f, ctrl := c, mode := m } =
        exec (.init rs en d4 d5 d6 d7) s

/-- The six display-control operations (R121 to R126): code, refusal before INIT, and in phase Ready the new
`ctrl`, sent whole as `CMD_DISPLAY | ctrl`; nothing else changes. -/
def Obligations.DisplayControlOperationsSetOrClearOneBit : Prop :=
  (HasCode 0x04#8 .displayOn ∧ RefusedBeforeInit .displayOn ∧
    Completes .displayOn fun s => afterDisplay s (s.ctrl ||| 0x04#8)) ∧
  (HasCode 0x05#8 .displayOff ∧ RefusedBeforeInit .displayOff ∧
    Completes .displayOff fun s => afterDisplay s (s.ctrl &&& 0xFB#8)) ∧
  (HasCode 0x06#8 .cursorOn ∧ RefusedBeforeInit .cursorOn ∧
    Completes .cursorOn fun s => afterDisplay s (s.ctrl ||| 0x02#8)) ∧
  (HasCode 0x07#8 .cursorOff ∧ RefusedBeforeInit .cursorOff ∧
    Completes .cursorOff fun s => afterDisplay s (s.ctrl &&& 0xFD#8)) ∧
  (HasCode 0x08#8 .blinkOn ∧ RefusedBeforeInit .blinkOn ∧
    Completes .blinkOn fun s => afterDisplay s (s.ctrl ||| 0x01#8)) ∧
  (HasCode 0x09#8 .blinkOff ∧ RefusedBeforeInit .blinkOff ∧
    Completes .blinkOff fun s => afterDisplay s (s.ctrl &&& 0xFE#8))

/-- The four entry-mode operations (R127 to R130), in the same form for `mode` and `CMD_ENTRY`. -/
def Obligations.EntryModeOperationsSetOrClearOneBit : Prop :=
  (HasCode 0x0A#8 .autoscrollOn ∧ RefusedBeforeInit .autoscrollOn ∧
    Completes .autoscrollOn fun s => afterEntry s (s.mode ||| 0x01#8)) ∧
  (HasCode 0x0B#8 .autoscrollOff ∧ RefusedBeforeInit .autoscrollOff ∧
    Completes .autoscrollOff fun s => afterEntry s (s.mode &&& 0xFE#8)) ∧
  (HasCode 0x0C#8 .leftToRight ∧ RefusedBeforeInit .leftToRight ∧
    Completes .leftToRight fun s => afterEntry s (s.mode ||| 0x02#8)) ∧
  (HasCode 0x0D#8 .rightToLeft ∧ RefusedBeforeInit .rightToLeft ∧
    Completes .rightToLeft fun s => afterEntry s (s.mode &&& 0xFD#8))

/-- CLEAR and HOME (R140, R141): code, refusal before INIT; in phase Ready the byte 0x01 or 0x02 as a
command, then a wait of its own of 2000 us; 22 events, at least 2204 us, no register changes. -/
def Obligations.ClearAndHomeSendAndThenWait : Prop :=
  (HasCode 0x02#8 .clear ∧ RefusedBeforeInit .clear ∧
    Completes .clear fun s => afterEvents s (sendEvents s.pin 0x01#8 false ++ [.W 2000])) ∧
  (HasCode 0x03#8 .home ∧ RefusedBeforeInit .home ∧
    Completes .home fun s => afterEvents s (sendEvents s.pin 0x02#8 false ++ [.W 2000])) ∧
  (∀ a v, (sendEvents a v false ++ [Event.W 2000]).length = 22 ∧
    minDuration (sendEvents a v false ++ [Event.W 2000]) = 2204)

/-- SHIFT_LEFT and SHIFT_RIGHT (R150, R151): code, refusal before INIT; in phase Ready the byte 0x18 or 0x1C
as a command, 21 events, at least 204 us; no register is read or written. -/
def Obligations.ShiftsSendOneCommandAndKeepEveryRegister : Prop :=
  (HasCode 0x0E#8 .shiftLeft ∧ RefusedBeforeInit .shiftLeft ∧
    Completes .shiftLeft fun s => afterCommand s 0x18#8) ∧
  (HasCode 0x0F#8 .shiftRight ∧ RefusedBeforeInit .shiftRight ∧
    Completes .shiftRight fun s => afterCommand s 0x1C#8) ∧
  (∀ a v, (sendEvents a v false).length = 21 ∧ minDuration (sendEvents a v false) = 204)

/-- SET_CURSOR (R160): code and operands, refusal before INIT, and for every `col` and `row` the command
`0x80 | ((col + ROW_OFFSET[min(row, 1)]) mod 256)`; no register changes. -/
def Obligations.SetCursorSendsTheClampedAddress : Prop :=
  (∀ w, opOf w = 0x10#8 → decode w = .ok (.setCursor (a0Of w) (a1Of w))) ∧
  ∀ col row : Byte, RefusedBeforeInit (.setCursor col row) ∧
    Completes (.setCursor col row) fun s => afterCommand s (0x80#8 ||| ddramAddress col row)

/-- WRITE_CHAR (R170): code and operand, refusal before INIT, and for every byte the byte itself with RS =
1, 21 events, at least 204 us; no register changes. It is the only operation that writes RS = 1 (with
distinct pins: another role on the same pin could). -/
def Obligations.WriteCharSendsItsByteAsData : Prop :=
  (∀ w, opOf w = 0x11#8 → decode w = .ok (.writeChar (a0Of w))) ∧
  (∀ c : Byte, RefusedBeforeInit (.writeChar c) ∧
    Completes (.writeChar c) fun s => afterEvents s (sendEvents s.pin c true)) ∧
  (∀ a c, (sendEvents a c true).length = 21 ∧ minDuration (sendEvents a c true) = 204) ∧
  (∀ (i : Instr) (s t : State) (es : List Event), (∀ c, i ≠ .writeChar c) → exec i s = .next t →
    t.trace = s.trace ++ es → pinsDistinct t.pin = true → writesOf t.pin.rs true es = 0)

/-- The reasons recorded by a refusal and their codes (R202, R204, R205): `BeforeInit` for each of the
sixteen operations other than INIT in phase Uninitialized, `InitWhenReady` for INIT in phase Ready, and
`Interleaved` for any operation begun while another is in progress. Nothing but mark and record changes. The
form of the record is log entry 9, the place of the `Interleaved` check log entry 10. -/
def Obligations.RefusalRecordsItsReason : Prop :=
  (∀ (i : Instr) (s : State), i.isInit = false → reqReady s = true → s.phase = .uninitialized →
    exec i s = .next { s with refused := true, refusals := s.refusals ++ [.beforeInit] }) ∧
  (∀ (i : Instr) (s : State), i.isInit = true → reqReady s = true → s.phase = .ready →
    exec i s = .next { s with refused := true, refusals := s.refusals ++ [.initWhenReady] }) ∧
  (∀ (i : Instr) (s : State), reqReady s = false →
    exec i s = .next { s with refused := true, refusals := s.refusals ++ [.interleaved] }) ∧
  refuseCode .beforeInit = 1 ∧ refuseCode .initWhenReady = 2 ∧
  (∀ w, refuseCode (.reservedRequest w) = 3) ∧ refuseCode .interleaved = 4

/-- The mark is sticky until reset (R203, R212): a step that is not a reset keeps it. That every record is
kept too, oldest first, is the model's choice (log entry 9). -/
def Obligations.RefusedMarkIsStickyUntilReset : Prop :=
  ∀ s t : State, step s = .next t → s.port.head? ≠ some .reset →
    (s.refused = true → t.refused = true) ∧ s.refusals <+: t.refusals

/-- The machine raises no fault (R200): there is no fault to answer with, and every step answers a next
state. That a refused request is a next state too is the model's choice (log entry 1), and so is that a step
with nothing driven is an idle one (log entry 4). -/
def Obligations.EveryStepAnswersANextState : Prop :=
  (∀ s : State, ∃ t, step s = .next t) ∧ ∀ _ : Fault, False

/-- The only operation that changes `phase` is INIT, from Uninitialized to Ready (R21, R216). -/
def Obligations.OnlyInitChangesThePhase : Prop :=
  ∀ (i : Instr) (s t : State), exec i s = .next t → t.phase ≠ s.phase →
    i.isInit = true ∧ s.phase = .uninitialized ∧ t.phase = .ready

/-- Pin registers and `fn` are written by INIT only (R22, R24); a display-control operation leaves `mode`,
an entry-mode operation leaves `ctrl`, and every other operation leaves both (R34, R133, both derived there
from the operations' rules). -/
def Obligations.RegistersChangeOnlyByTheirOperations : Prop :=
  ∀ (i : Instr) (s t : State), exec i s = .next t → i.isInit = false →
    t.pin = s.pin ∧ t.fn = s.fn ∧
    (t.ctrl ≠ s.ctrl → ∃ flag, modeBit i = some (.ctrl, flag)) ∧
    (t.mode ≠ s.mode → ∃ flag, modeBit i = some (.mode, flag)) ∧
    t.pending = s.pending ∧ t.port = s.port

/-- The trace is append-only (R29, R62): a step that is not a reset only adds events at its end. -/
def Obligations.TraceOnlyGrowsUntilReset : Prop :=
  ∀ s t : State, step s = .next t → s.port.head? ≠ some .reset → s.trace <+: t.trace

/-- An operation writes no pin but the six of its pin registers (R22, R28): the level of every other pin is
what it was, unknown if it was unknown. -/
def Obligations.OtherPinsKeepTheirLevels : Prop :=
  ∀ (i : Instr) (s t : State) (p : PinId), exec i s = .next t →
    p ∉ [t.pin.rs, t.pin.en, t.pin.d4, t.pin.d5, t.pin.d6, t.pin.d7] →
      readLevel t.level p = readLevel s.level p

/-- The levels an operation of phase Ready leaves, with distinct pins (R28, R182, R251): EN at 0, RS as it
was sent, the data lines at the low nibble of the one byte it sent. -/
def Obligations.LinesHoldTheLastNibble : Prop :=
  ∀ (i : Instr) (s t : State) (b : BusByte), i.isInit = false → reqReady s = true → s.phase = .ready →
    pinsDistinct s.pin = true → exec i s = .next t → bytesSent i (s.ctrl, s.mode) = [b] →
      readLevel t.level s.pin.en = some false ∧ readLevel t.level s.pin.rs = some b.rs ∧
      readLevel t.level s.pin.d4 = some (b.byte.getLsbD 0) ∧
      readLevel t.level s.pin.d5 = some (b.byte.getLsbD 1) ∧
      readLevel t.level s.pin.d6 = some (b.byte.getLsbD 2) ∧
      readLevel t.level s.pin.d7 = some (b.byte.getLsbD 3)

/-- The levels INIT leaves, with distinct pins, whatever they were (R35, R234). -/
def Obligations.InitLeavesTheseLevels : Prop :=
  ∀ (rs en d4 d5 d6 d7 : PinId) (s : State), reqReady s = true → s.phase = .uninitialized →
    distinctPins rs en d4 d5 d6 d7 = true →
      ∃ t, exec (.init rs en d4 d5 d6 d7) s = .next t ∧
        readLevel t.level rs = some false ∧ readLevel t.level en = some false ∧
        readLevel t.level d4 = some false ∧ readLevel t.level d5 = some true ∧
        readLevel t.level d6 = some true ∧ readLevel t.level d7 = some false

/-- The invariant holds after reset. -/
def Obligations.InvariantHoldsAfterReset : Prop := Inv State.reset

/-- Every step keeps the invariant: the latch equal to what the trace leaves (R28), and in the canonical
form that the model gives it (log entry 12); the mark set exactly when something is recorded since reset
(the record is the model's choice, log entry 9); and in phase Ready, at the end of the operation in
progress, `fn` = 0x08, `ctrl` at most 0x07, `mode` at most 0x03 (R37) and EN at 0 (R234). R37 and R234 are
the spec's own inferences ("derived: from rules R24, R25, R26", "derived: from rule R110"). -/
def Obligations.EveryStepKeepsTheInvariant : Prop :=
  ∀ s t : State, Inv s → step s = .next t → Inv t

/-- One big step and one small step per event agree (R13, R30): a request run at the stepped pace, with
nothing else driven, reaches after its acceptance and as many steps as its big step appends events exactly
the state the big step reaches. -/
def Obligations.SteppedRunReachesTheWholeRunsState : Prop :=
  ∀ (s t : State) (w : RequestWord), reqReady s = true →
    step { s with port := [.request .whole w] } = .next t →
      core.run (1 + (t.trace.length - s.trace.length)) { s with port := [.request .stepped w] } = .next t

/-- Mid-operation (R30, R33, U16): after acceptance at the stepped pace and `k` further steps, the trace
holds the first `k` of the events the operation appends, and the transmitter is busy until the last. -/
def Obligations.MidOperationTraceIsAPrefix : Prop :=
  ∀ (s t : State) (w : RequestWord) (k : Nat), reqReady s = true →
    step { s with port := [.request .whole w] } = .next t →
      ∃ u, core.run (1 + k) { s with port := [.request .stepped w] } = .next u ∧
        u.trace = t.trace.take (s.trace.length + k) ∧
        (reqReady u = true ↔ t.trace.length ≤ s.trace.length + k)

/-- One small step of an operation in progress emits exactly one event (R30): its position advances by one.
-/
def Obligations.SmallStepEmitsOneEvent : Prop :=
  ∀ s : State, s.pending.any isEvent = true →
    ∃ e, (advance s).trace = s.trace ++ [e] ∧
      (advance s).pending.countP isEvent + 1 = s.pending.countP isEvent

/-- Reset cuts an operation at any of its events (R230, R244, U16): a request taken at the stepped pace, `k`
events, then `rst` leaves the state `rst` leaves in an idle machine. -/
def Obligations.ResetMayCutAnOperationAnywhere : Prop :=
  ∀ (s : State) (w : RequestWord) (k : Nat) (rest : List PortInput), reqReady s = true →
    core.run (k + 2) { s with port := .request .stepped w :: List.replicate k .idle ++ .reset :: rest } =
      step { s with port := .reset :: rest }

/-- The nibble-split property (R184, S2; the spec derives it from R180 to R182): with distinct pins and EN
not at 1 before, the events SEND of any byte appends hold exactly two `P(EN,1)` and give the controller
exactly two beats, first `b >> 4`, second `b & 0xF`, both with RS = `m`. -/
def Obligations.SendGivesTwoBeatsHighNibbleFirst : Prop :=
  ∀ (s : State) (b : Byte) (m : Level), pinsDistinct s.pin = true → readLevel s.level s.pin.en ≠ some true →
    ∃ es, (perform (send b m) s).trace = s.trace ++ es ∧ writesOf s.pin.en true es = 2 ∧
      beatsFrom s.pin s.level es =
        some [⟨m, (b >>> 4).setWidth 4⟩, ⟨m, (b &&& 0x0F#8).setWidth 4⟩]

/-- Every operation of phase Ready appends one SEND and, for CLEAR and HOME only, a wait (R87, R142); its
new `ctrl` and `mode` are those of R87. -/
def Obligations.EveryOperationIsOneByteAndItsWait : Prop :=
  ∀ (i : Instr) (s : State), i.isInit = false → reqReady s = true → s.phase = .ready →
    ∃ b t, bytesSent i (s.ctrl, s.mode) = [b] ∧ exec i s = .next t ∧
      t.trace = s.trace ++ sendEvents s.pin b.byte b.rs ++ waitsAfter i ∧
      (t.ctrl, t.mode) = shadowsAfter i (s.ctrl, s.mode)

/-- The byte stream of a run (R187; the spec derives it from R110, R182, R186): INIT with distinct pins,
then any operations, from reset, is not refused and sends (0,0x28) (0,0x0C) (0,0x01) (0,0x06) and then each
operation's byte, as the controller reads it off the pins. -/
def Obligations.RunSendsTheBytesOfItsOperations : Prop :=
  ∀ (rs en d4 d5 d6 d7 : PinId) (is : List Instr),
    wellFormedRun (.init rs en d4 d5 d6 d7 :: is) = true →
      ∃ t, core.run (1 + is.length)
          { State.reset with port := requests (.init rs en d4 d5 d6 d7 :: is) } = .next t ∧
        clean t = true ∧ t.phase = .ready ∧
        byteStream t.pin t.trace = some
          ([⟨false, 0x28#8⟩, ⟨false, 0x0C#8⟩, ⟨false, 0x01#8⟩, ⟨false, 0x06#8⟩] ++
            bytesOfRun is (0x04#8, 0x02#8))

/-- Commands the transmitter never emits (R89, derived there from R87). The byte an operation sends from an
idle Ready state with the values of R37: RS = 1 exactly for WRITE_CHAR (R188, derived there), and with RS =
0 no 0x00, no set-CGRAM-address, no cursor-move shift, no function set. The full bytes INIT sends after its
lone nibbles: 0x28, 0x0C, 0x01, 0x06, all with RS = 0, so that 0x28 is the only function set. -/
def Obligations.ForbiddenCommandsAreNeverSent : Prop :=
  (∀ (i : Instr) (s t : State) (b : BusByte), i.isInit = false → reqReady s = true → s.phase = .ready →
    readyOk s → exec i s = .next t →
    t.trace = s.trace ++ sendEvents s.pin b.byte b.rs ++ waitsAfter i →
      (b.rs = true ↔ ∃ ch, i = .writeChar ch) ∧
      (b.rs = false →
        b.byte ≠ 0x00#8 ∧ ¬(0x40 ≤ b.byte.toNat ∧ b.byte.toNat < 0x80) ∧
        b.byte ≠ 0x10#8 ∧ b.byte ≠ 0x14#8 ∧ ¬(0x20 ≤ b.byte.toNat ∧ b.byte.toNat < 0x40))) ∧
  (∀ (i : Instr) (s : State), i.isInit = true → reqReady s = true → s.phase = .uninitialized →
    ∃ t, exec i s = .next t ∧
      t.trace = s.trace ++ resyncEvents t.pin ++ [0x28#8, 0x0C#8, 0x01#8, 0x06#8].flatMap fun v =>
        sendEvents t.pin v false ++ if v = 0x01#8 then [.W 2000] else [])

/-- The pulse count is fixed by the operation (R185, S3; the spec derives it from R110, R180, R182): with
distinct pins INIT makes 12 enable pulses, every other operation 2, each a whole pulse of R180's shape. -/
def Obligations.PulsesAreFixedInNumberAndShape : Prop :=
  ∀ (i : Instr) (s t : State) (es : List Event), exec i s = .next t →
    t.trace = s.trace ++ es → es ≠ [] → pinsDistinct t.pin = true →
      writesOf t.pin.en true es = (if i.isInit then 12 else 2) ∧ PulsesAreWhole t.pin.en es

/-- Within an operation of phase Ready no write to RS or a data line finds EN at 1 (R67; the spec derives it
from R180 to R182), with distinct pins and EN at 0 before it. -/
def Obligations.LinesAreSteadyWhileEnableIsHigh : Prop :=
  ∀ (i : Instr) (s t : State) (es : List Event), exec i s = .next t → t.trace = s.trace ++ es →
    pinsDistinct t.pin = true → readLevel s.level t.pin.en ≠ some true →
      steadyWhileHigh t.pin s.level es = true

/-- Idempotence (R131, S4; the spec derives it from R120): a mode operation run twice from any Ready state
leaves the registers its first run left, and appends the same events again: nothing is suppressed. -/
def Obligations.ModeOperationsAreIdempotent : Prop :=
  ∀ (i : Instr) (s t u : State), i ∈ modeOperations → reqReady s = true → s.phase = .ready →
    exec i s = .next t → exec i t = .next u →
      u.fn = t.fn ∧ u.ctrl = t.ctrl ∧ u.mode = t.mode ∧
      ∃ es, es.length = 21 ∧ t.trace = s.trace ++ es ∧ u.trace = t.trace ++ es

/-- Round trip (R132, S5; the spec derives it from R121 and R122): after DISPLAY_ON and DISPLAY_OFF from any
Ready state bit D is 0, every other bit of `ctrl` is as before, and the two bytes sent differ in bit 2 only.
-/
def Obligations.DisplayOnThenOffClearsOnlyTheOnBit : Prop :=
  ∀ s t u : State, reqReady s = true → s.phase = .ready →
    exec .displayOn s = .next t → exec .displayOff t = .next u →
      u.ctrl.getLsbD 2 = false ∧ (∀ k, k ≠ 2 → u.ctrl.getLsbD k = s.ctrl.getLsbD k) ∧
      ∃ b1 b2 : Byte, b1 ^^^ b2 = 0x04#8 ∧
        u.trace = s.trace ++ sendEvents s.pin b1 false ++ sendEvents s.pin b2 false

/-- Mode operations on different bits commute as far as the registers go (R133; the spec derives it from
R120 to R130). -/
def Obligations.ModeOperationsOnDifferentBitsCommute : Prop :=
  ∀ (i j : Instr) (s si sij sj sji : State), i ∈ modeOperations → j ∈ modeOperations →
    modeBit i ≠ modeBit j → reqReady s = true → s.phase = .ready →
    exec i s = .next si → exec j si = .next sij → exec j s = .next sj → exec i sj = .next sji →
      sij.ctrl = sji.ctrl ∧ sij.mode = sji.mode ∧ sij.fn = sji.fn

/-- The clamp law (R161, S6): every row from 1 on does, in every state, what row 1 does, and in phase Ready
that is to send `0x80 | ((col + ROW_OFFSET[1]) mod 256)`; the open entries 2 and 3 stand in no result. -/
def Obligations.RowsAboveOneActAsRowOne : Prop :=
  ∀ (col row : Byte), 1 ≤ row.toNat →
    (∀ s : State, exec (.setCursor col row) s = exec (.setCursor col 0x01#8) s) ∧
    Completes (.setCursor col row) fun s => afterCommand s (0x80#8 ||| (col + 0x40#8))

/-- The address the controller receives is the sum modulo 128 (R163; the spec derives it from R160), and bit
7 is always set. -/
def Obligations.CursorAddressIsTakenModulo128 : Prop :=
  ∀ col row : Byte,
    (cursorCommand col row).toNat =
      128 + (col.toNat + (if row.toNat = 0 then 0x00 else 0x40)) % 128

/-- WRITE_STRING (R171): the expansion is one WRITE_CHAR per byte before the first terminator, and what
stands behind the terminator does not matter; a string without one has no expansion (U14). -/
def Obligations.WriteStringExpandsToItsCharacters : Prop :=
  ∀ text rest : List Byte, 0x00#8 ∉ text →
    writeString (text ++ 0x00#8 :: rest) = .ok (text.map .writeChar) ∧
    writeString text = .error .unterminated

/-- A string of `k` characters appends 21 * `k` events, lasts at least 204 * `k` us and changes no register,
from any idle Ready state (R171, R250). -/
def Obligations.StringOfKCharactersAppends21KEvents : Prop :=
  ∀ (text : List Byte) (s : State), reqReady s = true → s.phase = .ready →
    ∃ t es, core.run text.length { s with port := requests (text.map .writeChar) } = .next t ∧
      t.trace = s.trace ++ es ∧ es.length = 21 * text.length ∧ minDuration es = 204 * text.length ∧
      t.phase = s.phase ∧ t.pin = s.pin ∧ t.fn = s.fn ∧ t.ctrl = s.ctrl ∧ t.mode = s.mode ∧
      t.refused = s.refused ∧ reqReady t = true

/-- WRITE_INT 42 is WRITE_STRING "42" (R172, S7); every other number's text is open (log entry 15). -/
def Obligations.WriteInt42IsWriteString42 : Prop :=
  writeInt 42 = writeString [0x34#8, 0x32#8, 0x00#8] ∧
  writeInt 42 = .ok [.writeChar 0x34#8, .writeChar 0x32#8]

/-- A second requester, which does not wait for `req_ready` (R57, R220): its reserved word is refused
`ReservedRequest`; any other word is refused `Interleaved` while an operation is in progress (R202 code 4)
and runs as its instruction when none is. The input `.rival`, the place of this check after decoding, and
that the refusing step emits no event, are the model's choice (log entries 4 and 10); the form of the record
is log entry 9. -/
def Obligations.SecondRequesterIsRefusedWhileBusy : Prop :=
  ∀ (s : State) (w : RequestWord) (rest : List PortInput), s.port = .rival w :: rest →
    ((opOf w = 0x00#8 ∨ 0x12 ≤ (opOf w).toNat) →
      step s = .next { s with
        port := rest, refused := true, refusals := s.refusals ++ [.reservedRequest w] }) ∧
    (∀ i, decode w = .ok i → reqReady s = false →
      step s = .next { s with port := rest, refused := true, refusals := s.refusals ++ [.interleaved] }) ∧
    (∀ i, decode w = .ok i → reqReady s = true → step s = exec i { s with port := rest })

/-- The round trip of every set/clear pair (R132: "The same holds for every set/clear pair and its bit"; the
spec derives it from R121 and R122): display, cursor, blink, autoscroll, direction, from any Ready state.
The pair's bit ends at 0, every other bit of the pair's register and every other register is as before, and
the two bytes sent differ in that bit only. -/
def Obligations.EverySetClearPairClearsOnlyItsBit : Prop :=
  ∀ (on off : Instr) (r : Shadow) (flag : Byte) (s t u : State), (on, off) ∈ setClearPairs →
    modeBit on = some (r, flag) → reqReady s = true → s.phase = .ready →
    exec on s = .next t → exec off t = .next u →
      readShadow u r = readShadow s r &&& ~~~flag ∧
      (∀ q, q ≠ r → readShadow u q = readShadow s q) ∧
      ∃ b1 b2 : Byte, b1 ^^^ b2 = flag ∧
        u.trace = s.trace ++ sendEvents s.pin b1 false ++ sendEvents s.pin b2 false
end

