-- ==== Sys2Proof/Laws/Decode.lean ====
section
/-! SUPPORT. The fields of a word built by `req56` are the bytes it was built from (30_encoding.md R82). -/

namespace Sys2Proof

/-- The number a word of format REQ56 is (R82). -/
theorem toNat_req56 (op a0 a1 a2 a3 a4 a5 : Byte) :
    (req56 op a0 a1 a2 a3 a4 a5).toNat =
      (((((op.toNat * 2 ^ 8 + a0.toNat) * 2 ^ 8 + a1.toNat) * 2 ^ 8 + a2.toNat) * 2 ^ 8 + a3.toNat) * 2 ^ 8 +
        a4.toNat) * 2 ^ 8 + a5.toNat := by
  have h : ∀ {n : Nat} (x : BitVec n) (y : Byte), (x ++ y).toNat = x.toNat * 2 ^ 8 + y.toNat := fun x y => by
    rw [BitVec.toNat_append, ← Nat.shiftLeft_add_eq_or_of_lt y.isLt, Nat.shiftLeft_eq]
  simp only [req56, h]

@[simp] theorem opOf_req56 (op a0 a1 a2 a3 a4 a5 : Byte) : opOf (req56 op a0 a1 a2 a3 a4 a5) = op := by
  apply BitVec.eq_of_toNat_eq
  simp only [opOf, BitVec.extractLsb'_toNat, toNat_req56, Nat.shiftRight_eq_div_pow]
  omega

@[simp] theorem a0Of_req56 (op a0 a1 a2 a3 a4 a5 : Byte) : a0Of (req56 op a0 a1 a2 a3 a4 a5) = a0 := by
  apply BitVec.eq_of_toNat_eq
  simp only [a0Of, BitVec.extractLsb'_toNat, toNat_req56, Nat.shiftRight_eq_div_pow]
  omega

@[simp] theorem a1Of_req56 (op a0 a1 a2 a3 a4 a5 : Byte) : a1Of (req56 op a0 a1 a2 a3 a4 a5) = a1 := by
  apply BitVec.eq_of_toNat_eq
  simp only [a1Of, BitVec.extractLsb'_toNat, toNat_req56, Nat.shiftRight_eq_div_pow]
  omega

@[simp] theorem a2Of_req56 (op a0 a1 a2 a3 a4 a5 : Byte) : a2Of (req56 op a0 a1 a2 a3 a4 a5) = a2 := by
  apply BitVec.eq_of_toNat_eq
  simp only [a2Of, BitVec.extractLsb'_toNat, toNat_req56, Nat.shiftRight_eq_div_pow]
  omega

@[simp] theorem a3Of_req56 (op a0 a1 a2 a3 a4 a5 : Byte) : a3Of (req56 op a0 a1 a2 a3 a4 a5) = a3 := by
  apply BitVec.eq_of_toNat_eq
  simp only [a3Of, BitVec.extractLsb'_toNat, toNat_req56, Nat.shiftRight_eq_div_pow]
  omega

@[simp] theorem a4Of_req56 (op a0 a1 a2 a3 a4 a5 : Byte) : a4Of (req56 op a0 a1 a2 a3 a4 a5) = a4 := by
  apply BitVec.eq_of_toNat_eq
  simp only [a4Of, BitVec.extractLsb'_toNat, toNat_req56, Nat.shiftRight_eq_div_pow]
  omega

@[simp] theorem a5Of_req56 (op a0 a1 a2 a3 a4 a5 : Byte) : a5Of (req56 op a0 a1 a2 a3 a4 a5) = a5 := by
  apply BitVec.eq_of_toNat_eq
  simp only [a5Of, BitVec.extractLsb'_toNat, toNat_req56, Nat.shiftRight_eq_div_pow]
  omega

/-- The number of a code below 256 is the code of `decode`'s match. -/
theorem opOf_eq_of_toNat {w : RequestWord} {n : Nat} (h : (opOf w).toNat = n) : opOf w = BitVec.ofNat 8 n := by
  rw [← h, BitVec.ofNat_toNat, BitVec.setWidth_eq]

end Sys2Proof
end

