-- ==== Sys2Proof/Laws/State.lean ====
section
/-! SUPPORT. One lemma per field per update of the state, true by `rfl`. -/

namespace Sys2Proof.Machine

@[simp] theorem gpioWrite_phase (p : PinId) (l : Level) (s : State) : (gpioWrite p l s).phase = s.phase := rfl
@[simp] theorem gpioWrite_pin (p : PinId) (l : Level) (s : State) : (gpioWrite p l s).pin = s.pin := rfl
@[simp] theorem gpioWrite_fn (p : PinId) (l : Level) (s : State) : (gpioWrite p l s).fn = s.fn := rfl
@[simp] theorem gpioWrite_ctrl (p : PinId) (l : Level) (s : State) : (gpioWrite p l s).ctrl = s.ctrl := rfl
@[simp] theorem gpioWrite_mode (p : PinId) (l : Level) (s : State) : (gpioWrite p l s).mode = s.mode := rfl
@[simp] theorem gpioWrite_level (p : PinId) (l : Level) (s : State) :
    (gpioWrite p l s).level = writeLevel s.level p l := rfl
@[simp] theorem gpioWrite_trace (p : PinId) (l : Level) (s : State) :
    (gpioWrite p l s).trace = s.trace ++ [.P p l] := rfl
@[simp] theorem gpioWrite_refused (p : PinId) (l : Level) (s : State) : (gpioWrite p l s).refused = s.refused := rfl
@[simp] theorem gpioWrite_refusals (p : PinId) (l : Level) (s : State) :
    (gpioWrite p l s).refusals = s.refusals := rfl
@[simp] theorem gpioWrite_pending (p : PinId) (l : Level) (s : State) : (gpioWrite p l s).pending = s.pending := rfl
@[simp] theorem gpioWrite_port (p : PinId) (l : Level) (s : State) : (gpioWrite p l s).port = s.port := rfl

@[simp] theorem delayUs_phase (n : Nat) (s : State) : (delayUs n s).phase = s.phase := rfl
@[simp] theorem delayUs_pin (n : Nat) (s : State) : (delayUs n s).pin = s.pin := rfl
@[simp] theorem delayUs_fn (n : Nat) (s : State) : (delayUs n s).fn = s.fn := rfl
@[simp] theorem delayUs_ctrl (n : Nat) (s : State) : (delayUs n s).ctrl = s.ctrl := rfl
@[simp] theorem delayUs_mode (n : Nat) (s : State) : (delayUs n s).mode = s.mode := rfl
@[simp] theorem delayUs_level (n : Nat) (s : State) : (delayUs n s).level = s.level := rfl
@[simp] theorem delayUs_trace (n : Nat) (s : State) : (delayUs n s).trace = s.trace ++ [.W n] := rfl
@[simp] theorem delayUs_refused (n : Nat) (s : State) : (delayUs n s).refused = s.refused := rfl
@[simp] theorem delayUs_refusals (n : Nat) (s : State) : (delayUs n s).refusals = s.refusals := rfl
@[simp] theorem delayUs_pending (n : Nat) (s : State) : (delayUs n s).pending = s.pending := rfl
@[simp] theorem delayUs_port (n : Nat) (s : State) : (delayUs n s).port = s.port := rfl

@[simp] theorem refuse_phase (r : RefuseReason) (s : State) : (refuse r s).phase = s.phase := rfl
@[simp] theorem refuse_pin (r : RefuseReason) (s : State) : (refuse r s).pin = s.pin := rfl
@[simp] theorem refuse_fn (r : RefuseReason) (s : State) : (refuse r s).fn = s.fn := rfl
@[simp] theorem refuse_ctrl (r : RefuseReason) (s : State) : (refuse r s).ctrl = s.ctrl := rfl
@[simp] theorem refuse_mode (r : RefuseReason) (s : State) : (refuse r s).mode = s.mode := rfl
@[simp] theorem refuse_level (r : RefuseReason) (s : State) : (refuse r s).level = s.level := rfl
@[simp] theorem refuse_trace (r : RefuseReason) (s : State) : (refuse r s).trace = s.trace := rfl
@[simp] theorem refuse_refused (r : RefuseReason) (s : State) : (refuse r s).refused = true := rfl
@[simp] theorem refuse_refusals (r : RefuseReason) (s : State) : (refuse r s).refusals = s.refusals ++ [r] := rfl
@[simp] theorem refuse_pending (r : RefuseReason) (s : State) : (refuse r s).pending = s.pending := rfl
@[simp] theorem refuse_port (r : RefuseReason) (s : State) : (refuse r s).port = s.port := rfl

@[simp] theorem hardwareReset_phase (s : State) : (hardwareReset s).phase = .uninitialized := rfl
@[simp] theorem hardwareReset_level (s : State) : (hardwareReset s).level = [] := rfl
@[simp] theorem hardwareReset_trace (s : State) : (hardwareReset s).trace = [] := rfl
@[simp] theorem hardwareReset_refused (s : State) : (hardwareReset s).refused = false := rfl
@[simp] theorem hardwareReset_refusals (s : State) : (hardwareReset s).refusals = [] := rfl
@[simp] theorem hardwareReset_pending (s : State) : (hardwareReset s).pending = [] := rfl
@[simp] theorem hardwareReset_port (s : State) : (hardwareReset s).port = s.port := rfl

theorem reqReady_iff (s : State) : reqReady s = true ↔ s.pending = [] := by
  simp [reqReady, List.isEmpty_iff]

theorem reqReady_eq_false_iff (s : State) : reqReady s = false ↔ s.pending ≠ [] := by
  simp [reqReady, List.isEmpty_eq_false_iff]

end Sys2Proof.Machine
end

