-- ==== Sys2Proof/Laws/Levels.lean ====
section
/-! SUPPORT. The laws of the level latch (10_state.md R28): a pin reads as it was last written, every
other pin keeps its level, and every write keeps the canonical form. -/

namespace Sys2Proof.Machine

@[simp] theorem readLevel_nil (p : PinId) : readLevel [] p = none := rfl

theorem readLevel_cons (q p : PinId) (l : Level) (lv : Levels) :
    readLevel ((q, l) :: lv) p = if p = q then some l else readLevel lv p := rfl

@[simp] theorem readLevel_writeLevel_same (lv : Levels) (p : PinId) (l : Level) :
    readLevel (writeLevel lv p l) p = some l := by
  induction lv with
  | nil => simp [writeLevel, readLevel]
  | cons e lv ih =>
    obtain ⟨q, k⟩ := e
    unfold writeLevel
    split
    · simp [readLevel]
    · split
      · simp [readLevel]
      · next h => simp [readLevel, h, ih]

theorem readLevel_writeLevel_other (lv : Levels) (p q : PinId) (l : Level) (h : q ≠ p) :
    readLevel (writeLevel lv p l) q = readLevel lv q := by
  induction lv with
  | nil => simp [writeLevel, readLevel, h]
  | cons e lv ih =>
    obtain ⟨r, k⟩ := e
    unfold writeLevel
    split
    · simp [readLevel, h]
    · split
      · next hp => subst hp; simp [readLevel, h]
      · simp only [readLevel_cons, ih]

theorem readLevel_writeLevel (lv : Levels) (p q : PinId) (l : Level) :
    readLevel (writeLevel lv p l) q = if q = p then some l else readLevel lv q := by
  split
  · next h => subst h; simp
  · next h => exact readLevel_writeLevel_other lv p q l h

/-- The first pin of a latch after a write: the written pin or the first pin before. -/
theorem head_writeLevel (lv : Levels) (p : PinId) (l : Level) :
    ∃ e rest, writeLevel lv p l = e :: rest ∧
      (e.1 = p ∨ ∃ e' rest', lv = e' :: rest' ∧ e.1 = e'.1) := by
  cases lv with
  | nil => exact ⟨(p, l), [], rfl, .inl rfl⟩
  | cons e lv =>
    obtain ⟨q, k⟩ := e
    unfold writeLevel
    split
    · exact ⟨_, _, rfl, .inl rfl⟩
    · split
      · exact ⟨_, _, rfl, .inl rfl⟩
      · exact ⟨_, _, rfl, .inr ⟨_, _, rfl, rfl⟩⟩

theorem levelsWf_cons (e : PinId × Level) (lv : Levels) :
    levelsWf (e :: lv) = true ↔ levelsWf lv = true ∧ ∀ e' ∈ lv.head?, e.1.toNat < e'.1.toNat := by
  cases lv with
  | nil => simp [levelsWf]
  | cons e' lv => simp [levelsWf, and_comm]

theorem levelsWf_writeLevel (lv : Levels) (p : PinId) (l : Level) (h : levelsWf lv = true) :
    levelsWf (writeLevel lv p l) = true := by
  induction lv with
  | nil => rfl
  | cons e lv ih =>
    obtain ⟨q, k⟩ := e
    have hc := (levelsWf_cons _ _).1 h
    unfold writeLevel
    split
    · next hlt => exact (levelsWf_cons _ _).2 ⟨h, by simpa using hlt⟩
    · split
      · next hp => subst hp; exact (levelsWf_cons _ _).2 hc
      · next hge hne =>
        refine (levelsWf_cons _ _).2 ⟨ih hc.1, ?_⟩
        obtain ⟨e, rest, heq, hfst⟩ := head_writeLevel lv p l
        rw [heq]
        intro e' he'
        simp only [List.head?_cons, Option.mem_def, Option.some.injEq] at he'
        subst he'
        rcases hfst with hp | ⟨e'', rest', hlv, hfst⟩
        · have : p.toNat ≠ q.toNat := fun hc => hne (BitVec.eq_of_toNat_eq hc)
          rw [hp]
          show q.toNat < p.toNat
          omega
        · rw [hfst]
          exact hc.2 e'' (by simp [hlv])

@[simp] theorem replay_nil (lv : Levels) : replay lv [] = lv := rfl

@[simp] theorem replay_P (lv : Levels) (p : PinId) (l : Level) (es : List Event) :
    replay lv (.P p l :: es) = replay (writeLevel lv p l) es := rfl

@[simp] theorem replay_W (lv : Levels) (n : Nat) (es : List Event) :
    replay lv (.W n :: es) = replay lv es := rfl

theorem replay_append (lv : Levels) (es fs : List Event) :
    replay lv (es ++ fs) = replay (replay lv es) fs := by
  simp [replay]

theorem levelsWf_replay (lv : Levels) (es : List Event) (h : levelsWf lv = true) :
    levelsWf (replay lv es) = true := by
  induction es generalizing lv with
  | nil => exact h
  | cons e es ih =>
    cases e with
    | P p l => exact ih _ (levelsWf_writeLevel lv p l h)
    | W n => exact ih _ h

/-- A pin that no event of a trace names keeps its level. -/
theorem readLevel_replay_other (lv : Levels) (es : List Event) (p : PinId)
    (h : ∀ l, Event.P p l ∉ es) : readLevel (replay lv es) p = readLevel lv p := by
  induction es generalizing lv with
  | nil => rfl
  | cons e es ih =>
    have hes : ∀ l, Event.P p l ∉ es := fun l hm => h l (List.mem_cons_of_mem _ hm)
    cases e with
    | P q l =>
      rw [replay_P, ih _ hes]
      exact readLevel_writeLevel_other lv q p l (fun hpq => h l (by simp [hpq]))
    | W n => exact ih _ hes

end Sys2Proof.Machine
end

