-- ==== Sys2Proof/Laws/Ops.lean ====
section
/-! SUPPORT. What the shared operations can do, said once: running a list of actions, the phase check,
one small step, an accepted word, one step. -/

namespace Sys2Proof.Machine

@[simp] theorem perform_nil (s : State) : perform [] s = s := rfl

theorem perform_cons (a : Action) (as : List Action) (s : State) :
    perform (a :: as) s = perform as (applyAction a s) := rfl

theorem perform_append (as bs : List Action) (s : State) :
    perform (as ++ bs) s = perform bs (perform as s) := by
  induction as generalizing s with
  | nil => rfl
  | cons a as ih => exact ih _

/-- An action appends at most one event, and exactly when it is one. -/
theorem applyAction_trace (a : Action) (s : State) :
    (isEvent a = true ∧ ∃ e, (applyAction a s).trace = s.trace ++ [e]) ∨
    (isEvent a = false ∧ (applyAction a s).trace = s.trace) := by
  cases a with
  | gpioWrite role l => exact .inl ⟨rfl, _, rfl⟩
  | delayUs n => exact .inl ⟨rfl, _, rfl⟩
  | setPins p => exact .inr ⟨rfl, rfl⟩
  | setShadow r v => cases r <;> exact .inr ⟨rfl, rfl⟩
  | setPhase p => exact .inr ⟨rfl, rfl⟩

/-- No action touches the mark, the record, the operation in progress or the port. -/
theorem applyAction_keeps (a : Action) (s : State) :
    (applyAction a s).refused = s.refused ∧ (applyAction a s).refusals = s.refusals ∧
    (applyAction a s).pending = s.pending ∧ (applyAction a s).port = s.port := by
  cases a with
  | setShadow r v => cases r <;> exact ⟨rfl, rfl, rfl, rfl⟩
  | gpioWrite role l => exact ⟨rfl, rfl, rfl, rfl⟩
  | delayUs n => exact ⟨rfl, rfl, rfl, rfl⟩
  | setPins p => exact ⟨rfl, rfl, rfl, rfl⟩
  | setPhase p => exact ⟨rfl, rfl, rfl, rfl⟩

theorem perform_keeps (as : List Action) (s : State) :
    (perform as s).refused = s.refused ∧ (perform as s).refusals = s.refusals ∧
    (perform as s).pending = s.pending ∧ (perform as s).port = s.port := by
  induction as generalizing s with
  | nil => exact ⟨rfl, rfl, rfl, rfl⟩
  | cons a as ih =>
    obtain ⟨h1, h2, h3, h4⟩ := applyAction_keeps a s
    obtain ⟨g1, g2, g3, g4⟩ := ih (applyAction a s)
    exact ⟨g1.trans h1, g2.trans h2, g3.trans h3, g4.trans h4⟩

/-- Actions never read the operation in progress. -/
theorem applyAction_pending (a : Action) (s : State) (p : List Action) :
    applyAction a { s with pending := p } = { applyAction a s with pending := p } := by
  cases a with
  | setShadow r v => cases r <;> rfl
  | gpioWrite role l => rfl
  | delayUs n => rfl
  | setPins p => rfl
  | setPhase p => rfl

theorem perform_pending (as : List Action) (s : State) (p : List Action) :
    perform as { s with pending := p } = { perform as s with pending := p } := by
  induction as generalizing s with
  | nil => rfl
  | cons a as ih => rw [perform_cons, applyAction_pending, ih]; rfl

/-- Actions never read the port. -/
theorem applyAction_port (a : Action) (s : State) (p : List PortInput) :
    applyAction a { s with port := p } = { applyAction a s with port := p } := by
  cases a with
  | setShadow r v => cases r <;> rfl
  | gpioWrite role l => rfl
  | delayUs n => rfl
  | setPins p => rfl
  | setPhase p => rfl

theorem perform_port (as : List Action) (s : State) (p : List PortInput) :
    perform as { s with port := p } = { perform as s with port := p } := by
  induction as generalizing s with
  | nil => rfl
  | cons a as ih => rw [perform_cons, applyAction_port, ih]; rfl

/-- The trace an operation leaves: what was there, then one event per action that is an event. -/
theorem perform_trace (as : List Action) (s : State) :
    ∃ es, (perform as s).trace = s.trace ++ es ∧ es.length = as.countP isEvent := by
  induction as generalizing s with
  | nil => exact ⟨[], by simp⟩
  | cons a as ih =>
    obtain ⟨es, hes, hlen⟩ := ih (applyAction a s)
    rcases applyAction_trace a s with ⟨he, e, ht⟩ | ⟨he, ht⟩
    · exact ⟨e :: es, by simp [perform_cons, hes, ht], by simp [he, hlen]⟩
    · exact ⟨es, by simp [perform_cons, hes, ht], by simp [he, hlen]⟩

/-- The latch stays what the trace leaves (R28). -/
theorem applyAction_faithful (a : Action) (s : State) (lv : Levels) (h : s.level = replay lv s.trace) :
    (applyAction a s).level = replay lv (applyAction a s).trace := by
  cases a with
  | setShadow r v => cases r <;> exact h
  | gpioWrite role l => simp [applyAction, replay_append, ← h]
  | delayUs n => simp [applyAction, replay_append, ← h]
  | setPins p => exact h
  | setPhase p => exact h

/-- One small step: nothing with no action left, else the register writes before the next event and that
event; the state the operation ends in stays the same. -/
theorem emitNext_end (as : List Action) (s : State) :
    { perform (emitNext as s).pending (emitNext as s) with pending := [] } =
      { perform as s with pending := [] } := by
  induction as generalizing s with
  | nil => rfl
  | cons a as ih =>
    rw [perform_cons]
    unfold emitNext
    split
    · unfold settleAfterEvent
      split
      · show { perform as { applyAction a s with pending := as } with pending := [] } = _
        rw [perform_pending]
      · rfl
    · exact ih _

/-- An accepted request either is refused, with the reason `refusalOf` gives, or runs its actions. -/
theorem exec_eq (i : Instr) (s : State) :
    exec i s = .next (match refusalOf i s with
      | some r => refuse r s
      | none => perform (operationActions i s) s) := by
  cases hp : s.phase <;> cases hr : reqReady s <;> cases i <;>
    simp [exec, execInit, execClear, execHome, execDisplayOn, execDisplayOff, execCursorOn, execCursorOff,
      execBlinkOn, execBlinkOff, execAutoscrollOn, execAutoscrollOff, execLeftToRight, execRightToLeft,
      execShiftLeft, execShiftRight, execSetCursor, execWriteChar, whenReady, whenUninitialized,
      refusalOf, operationActions, hp, hr]

/-- What `exec` can answer. -/
theorem exec_cases {i : Instr} {s t : State} (h : exec i s = .next t) :
    (∃ r, refusalOf i s = some r ∧ t = refuse r s) ∨
    (refusalOf i s = none ∧ t = perform (operationActions i s) s) := by
  rw [exec_eq] at h
  cases hr : refusalOf i s with
  | none => rw [hr] at h; injection h with h; exact .inr ⟨rfl, h.symm⟩
  | some r => rw [hr] at h; injection h with h; exact .inl ⟨r, rfl, h.symm⟩

/-- When a request is not refused: nothing is in progress, and INIT meets phase Uninitialized, every
other operation phase Ready (R216). -/
theorem refusalOf_eq_none {i : Instr} {s : State} (h : refusalOf i s = none) :
    s.pending = [] ∧
      ((∃ rs en d4 d5 d6 d7, i = .init rs en d4 d5 d6 d7) ∧ s.phase = .uninitialized ∨
        (∀ rs en d4 d5 d6 d7, i ≠ .init rs en d4 d5 d6 d7) ∧ s.phase = .ready) := by
  unfold refusalOf at h
  split at h
  · next hr =>
    refine ⟨(reqReady_iff s).1 hr, ?_⟩
    cases hp : s.phase <;> cases i <;> simp [hp] at h ⊢
  · cases h

/-- What an accepted word can lead to. -/
theorem accept_cases {pace : Pace} {w : RequestWord} {s t : State} (h : accept pace w s = .next t) :
    (∃ r, t = refuse r s) ∨
    (∃ i, decode w = .ok i ∧ refusalOf i s = none ∧
      (pace = .whole ∧ t = perform (operationActions i s) s ∨
       pace = .stepped ∧ t = { s with pending := operationActions i s })) := by
  unfold accept at h
  split at h
  · injection h with h; exact .inl ⟨_, h.symm⟩
  · next i hd =>
    cases pace with
    | whole =>
      rcases exec_cases h with ⟨r, _, ht⟩ | ⟨hr, ht⟩
      · exact .inl ⟨r, ht⟩
      · exact .inr ⟨i, hd, hr, .inl ⟨rfl, ht⟩⟩
    | stepped =>
      injection h with h
      unfold startStepped at h
      split at h
      · next r _ => exact .inl ⟨r, h.symm⟩
      · next hr => exact .inr ⟨i, hd, hr, .inr ⟨rfl, h.symm⟩⟩

/-- What a step can be: a small step, a reset, or an accepted word, each with its input taken from the
port. -/
theorem step_cases {s t : State} (h : step s = .next t) :
    (∃ rest, t = advance { s with port := rest }) ∨
    (∃ rest, s.port = .reset :: rest ∧ t = hardwareReset { s with port := rest }) ∨
    (∃ pace w rest, accept pace w { s with port := rest } = .next t) := by
  unfold step at h
  split at h
  · next hp => injection h with h; exact .inl ⟨[], by rw [← h, ← hp]⟩
  · injection h with h; exact .inl ⟨_, h.symm⟩
  · next rest hp => injection h with h; exact .inr (.inl ⟨rest, hp, h.symm⟩)
  · exact .inr (.inr ⟨_, _, _, h⟩)
  · split at h
    · exact .inr (.inr ⟨_, _, _, h⟩)
    · injection h with h; exact .inl ⟨_, h.symm⟩

end Sys2Proof.Machine
end

