-- ==== Sys2Proof/Laws/Events.lean ====
section
/-! SUPPORT. The algebra of `afterEvents`: primitives are events, events add up, and register writes move
past events that were already emitted. -/

namespace Sys2Proof.Machine

@[simp] theorem afterEvents_phase (s : State) (es : List Event) : (afterEvents s es).phase = s.phase := rfl
@[simp] theorem afterEvents_pin (s : State) (es : List Event) : (afterEvents s es).pin = s.pin := rfl
@[simp] theorem afterEvents_fn (s : State) (es : List Event) : (afterEvents s es).fn = s.fn := rfl
@[simp] theorem afterEvents_ctrl (s : State) (es : List Event) : (afterEvents s es).ctrl = s.ctrl := rfl
@[simp] theorem afterEvents_mode (s : State) (es : List Event) : (afterEvents s es).mode = s.mode := rfl
@[simp] theorem afterEvents_level (s : State) (es : List Event) :
    (afterEvents s es).level = replay s.level es := rfl
@[simp] theorem afterEvents_trace (s : State) (es : List Event) : (afterEvents s es).trace = s.trace ++ es := rfl
@[simp] theorem afterEvents_refused (s : State) (es : List Event) : (afterEvents s es).refused = s.refused := rfl
@[simp] theorem afterEvents_refusals (s : State) (es : List Event) :
    (afterEvents s es).refusals = s.refusals := rfl
@[simp] theorem afterEvents_pending (s : State) (es : List Event) : (afterEvents s es).pending = s.pending := rfl
@[simp] theorem afterEvents_port (s : State) (es : List Event) : (afterEvents s es).port = s.port := rfl

@[simp] theorem reqReady_afterEvents (s : State) (es : List Event) : reqReady (afterEvents s es) = reqReady s := rfl

@[simp] theorem afterDisplay_phase (s : State) (v : Byte) : (afterDisplay s v).phase = s.phase := by
  simp only [afterDisplay, afterEvents]
@[simp] theorem afterDisplay_pin (s : State) (v : Byte) : (afterDisplay s v).pin = s.pin := by
  simp only [afterDisplay, afterEvents]
@[simp] theorem afterDisplay_fn (s : State) (v : Byte) : (afterDisplay s v).fn = s.fn := by
  simp only [afterDisplay, afterEvents]
@[simp] theorem afterDisplay_ctrl (s : State) (v : Byte) : (afterDisplay s v).ctrl = v := by
  simp only [afterDisplay, afterEvents]
@[simp] theorem afterDisplay_mode (s : State) (v : Byte) : (afterDisplay s v).mode = s.mode := by
  simp only [afterDisplay, afterEvents]
@[simp] theorem afterDisplay_trace (s : State) (v : Byte) :
    (afterDisplay s v).trace = s.trace ++ sendEvents s.pin (0x08#8 ||| v) false := by
  simp only [afterDisplay, afterEvents]
@[simp] theorem afterDisplay_level (s : State) (v : Byte) :
    (afterDisplay s v).level = replay s.level (sendEvents s.pin (0x08#8 ||| v) false) := by
  simp only [afterDisplay, afterEvents]
@[simp] theorem afterDisplay_refused (s : State) (v : Byte) : (afterDisplay s v).refused = s.refused := by
  simp only [afterDisplay, afterEvents]
@[simp] theorem reqReady_afterDisplay (s : State) (v : Byte) : reqReady (afterDisplay s v) = reqReady s := by
  simp only [reqReady, afterDisplay, afterEvents]

@[simp] theorem afterEntry_phase (s : State) (v : Byte) : (afterEntry s v).phase = s.phase := by
  simp only [afterEntry, afterEvents]
@[simp] theorem afterEntry_pin (s : State) (v : Byte) : (afterEntry s v).pin = s.pin := by
  simp only [afterEntry, afterEvents]
@[simp] theorem afterEntry_fn (s : State) (v : Byte) : (afterEntry s v).fn = s.fn := by
  simp only [afterEntry, afterEvents]
@[simp] theorem afterEntry_mode (s : State) (v : Byte) : (afterEntry s v).mode = v := by
  simp only [afterEntry, afterEvents]
@[simp] theorem afterEntry_ctrl (s : State) (v : Byte) : (afterEntry s v).ctrl = s.ctrl := by
  simp only [afterEntry, afterEvents]
@[simp] theorem afterEntry_trace (s : State) (v : Byte) :
    (afterEntry s v).trace = s.trace ++ sendEvents s.pin (0x04#8 ||| v) false := by
  simp only [afterEntry, afterEvents]
@[simp] theorem afterEntry_level (s : State) (v : Byte) :
    (afterEntry s v).level = replay s.level (sendEvents s.pin (0x04#8 ||| v) false) := by
  simp only [afterEntry, afterEvents]
@[simp] theorem afterEntry_refused (s : State) (v : Byte) : (afterEntry s v).refused = s.refused := by
  simp only [afterEntry, afterEvents]
@[simp] theorem reqReady_afterEntry (s : State) (v : Byte) : reqReady (afterEntry s v) = reqReady s := by
  simp only [reqReady, afterEntry, afterEvents]

@[simp] theorem afterEvents_nil (s : State) : afterEvents s [] = s := by
  simp [afterEvents]

theorem afterEvents_append (s : State) (es fs : List Event) :
    afterEvents (afterEvents s es) fs = afterEvents s (es ++ fs) := by
  simp [afterEvents, replay_append]

theorem applyAction_gpioWrite (role : PinRole) (l : Level) (s : State) :
    applyAction (.gpioWrite role l) s = afterEvents s [.P (pinOf s.pin role) l] := rfl

theorem applyAction_delayUs (n : Nat) (s : State) :
    applyAction (.delayUs n) s = afterEvents s [.W n] := rfl

theorem applyAction_setShadow_afterEvents (r : Shadow) (v : Byte) (s : State) (es : List Event) :
    applyAction (.setShadow r v) (afterEvents s es) = afterEvents (applyAction (.setShadow r v) s) es := by
  cases r <;> rfl

theorem applyAction_setPhase_afterEvents (p : Phase) (s : State) (es : List Event) :
    applyAction (.setPhase p) (afterEvents s es) = afterEvents (applyAction (.setPhase p) s) es := rfl

@[simp] theorem applyAction_setShadow_pin (r : Shadow) (v : Byte) (s : State) :
    (applyAction (.setShadow r v) s).pin = s.pin := by
  cases r <;> rfl

/-- A write of a shadow register, by name. -/
@[simp] theorem applyAction_setFn (v : Byte) (s : State) :
    applyAction (.setShadow .fn v) s = { s with fn := v } := rfl
@[simp] theorem applyAction_setCtrl (v : Byte) (s : State) :
    applyAction (.setShadow .ctrl v) s = { s with ctrl := v } := rfl
@[simp] theorem applyAction_setMode (v : Byte) (s : State) :
    applyAction (.setShadow .mode v) s = { s with mode := v } := rfl

/-- The events a list of actions appends, from the pin registers at its start. -/
def eventsOf : PinAssignment → List Action → List Event
  | _, [] => []
  | a, .gpioWrite role l :: rest => .P (pinOf a role) l :: eventsOf a rest
  | a, .delayUs n :: rest => .W n :: eventsOf a rest
  | _, .setPins p :: rest => eventsOf p rest
  | a, .setShadow _ _ :: rest => eventsOf a rest
  | a, .setPhase _ :: rest => eventsOf a rest

/-- The pin registers after a list of actions. -/
def pinsAfter : PinAssignment → List Action → PinAssignment
  | a, [] => a
  | _, .setPins p :: rest => pinsAfter p rest
  | a, .gpioWrite _ _ :: rest => pinsAfter a rest
  | a, .delayUs _ :: rest => pinsAfter a rest
  | a, .setShadow _ _ :: rest => pinsAfter a rest
  | a, .setPhase _ :: rest => pinsAfter a rest

/-- A shadow register after a list of actions. -/
def shadowAfter (r : Shadow) : Byte → List Action → Byte
  | v, [] => v
  | v, .setShadow q w :: rest => shadowAfter r (if q = r then w else v) rest
  | v, .gpioWrite _ _ :: rest => shadowAfter r v rest
  | v, .delayUs _ :: rest => shadowAfter r v rest
  | v, .setPins _ :: rest => shadowAfter r v rest
  | v, .setPhase _ :: rest => shadowAfter r v rest

/-- The phase after a list of actions. -/
def phaseAfter : Phase → List Action → Phase
  | p, [] => p
  | _, .setPhase q :: rest => phaseAfter q rest
  | p, .gpioWrite _ _ :: rest => phaseAfter p rest
  | p, .delayUs _ :: rest => phaseAfter p rest
  | p, .setPins _ :: rest => phaseAfter p rest
  | p, .setShadow _ _ :: rest => phaseAfter p rest

/-- Everything a list of actions does, field by field: the spec of `perform`. -/
theorem perform_eq (as : List Action) (s : State) :
    perform as s = { s with
      phase := phaseAfter s.phase as
      pin := pinsAfter s.pin as
      fn := shadowAfter .fn s.fn as
      ctrl := shadowAfter .ctrl s.ctrl as
      mode := shadowAfter .mode s.mode as
      level := replay s.level (eventsOf s.pin as)
      trace := s.trace ++ eventsOf s.pin as } := by
  induction as generalizing s with
  | nil => simp [phaseAfter, pinsAfter, shadowAfter, eventsOf]
  | cons a as ih =>
    rw [perform_cons, ih]
    cases a with
    | gpioWrite role l =>
      simp [applyAction, gpioWrite, phaseAfter, pinsAfter, shadowAfter, eventsOf]
    | delayUs n => simp [applyAction, delayUs, phaseAfter, pinsAfter, shadowAfter, eventsOf]
    | setPins p => simp [applyAction, phaseAfter, pinsAfter, shadowAfter, eventsOf]
    | setShadow r v =>
      cases r <;> simp [applyAction, writeShadow, phaseAfter, pinsAfter, shadowAfter, eventsOf]
    | setPhase p => simp [applyAction, phaseAfter, pinsAfter, shadowAfter, eventsOf]

theorem eventsOf_length (a : PinAssignment) (as : List Action) :
    (eventsOf a as).length = as.countP isEvent := by
  induction as generalizing a with
  | nil => rfl
  | cons x as ih => cases x <;> simp [eventsOf, isEvent, ih, List.countP_cons]

theorem eventsOf_append (a : PinAssignment) (as bs : List Action) :
    eventsOf a (as ++ bs) = eventsOf a as ++ eventsOf (pinsAfter a as) bs := by
  induction as generalizing a with
  | nil => rfl
  | cons x as ih => cases x <;> simp [eventsOf, pinsAfter, ih]

theorem pinsAfter_append (a : PinAssignment) (as bs : List Action) :
    pinsAfter a (as ++ bs) = pinsAfter (pinsAfter a as) bs := by
  induction as generalizing a with
  | nil => rfl
  | cons x as ih => cases x <;> simp [pinsAfter, ih]

theorem shadowAfter_append (r : Shadow) (v : Byte) (as bs : List Action) :
    shadowAfter r v (as ++ bs) = shadowAfter r (shadowAfter r v as) bs := by
  induction as generalizing v with
  | nil => rfl
  | cons x as ih => cases x <;> simp [shadowAfter, ih]

theorem phaseAfter_append (p : Phase) (as bs : List Action) :
    phaseAfter p (as ++ bs) = phaseAfter (phaseAfter p as) bs := by
  induction as generalizing p with
  | nil => rfl
  | cons x as ih => cases x <;> simp [phaseAfter, ih]

theorem minDuration_append (es fs : List Event) : minDuration (es ++ fs) = minDuration es + minDuration fs := by
  simp [minDuration]

theorem writesOf_append (p : PinId) (l : Level) (es fs : List Event) :
    writesOf p l (es ++ fs) = writesOf p l es + writesOf p l fs := by
  simp [writesOf]

@[simp] theorem nibEvents_length (a : PinAssignment) (n : Nibble) : (nibEvents a n).length = 10 := rfl

@[simp] theorem minDuration_nibEvents (a : PinAssignment) (n : Nibble) : minDuration (nibEvents a n) = 102 := by
  simp [minDuration, nibEvents, waitOf]

@[simp] theorem sendEvents_length (a : PinAssignment) (v : Byte) (m : Level) : (sendEvents a v m).length = 21 := rfl

@[simp] theorem minDuration_sendEvents (a : PinAssignment) (v : Byte) (m : Level) :
    minDuration (sendEvents a v m) = 204 := by
  simp [minDuration, sendEvents, waitOf]

/-- Bit `k` of the high nibble is bit `4 + k` of the byte (20_memory.md R53). -/
theorem nibbleBit_highNibble (v : Byte) (k : Nat) (h : k < 4) :
    nibbleBit (highNibble v) k = v.getLsbD (4 + k) := by
  simp [nibbleBit, highNibble, h]

/-- Bit `k` of the low nibble is bit `k` of the byte (20_memory.md R53). -/
theorem nibbleBit_lowNibble (v : Byte) (k : Nat) (h : k < 4) :
    nibbleBit (lowNibble v) k = v.getLsbD k := by
  have : k = 0 ∨ k = 1 ∨ k = 2 ∨ k = 3 := by omega
  rcases this with rfl | rfl | rfl | rfl <;> simp [nibbleBit, lowNibble]

end Sys2Proof.Machine
end

