-- ==== Sys2Proof/Laws/PerInstr.lean ====
section
/-! SUPPORT. Statements about every instruction as syntax, one lemma per constructor. -/

namespace Sys2Proof.Laws

/-- The code of an instruction's row, read off the opcode table's column `match` (30_encoding.md R83). -/
def tableCode : Instr → Byte
  | .init .. => 0x01#8
  | .clear => 0x02#8
  | .home => 0x03#8
  | .displayOn => 0x04#8
  | .displayOff => 0x05#8
  | .cursorOn => 0x06#8
  | .cursorOff => 0x07#8
  | .blinkOn => 0x08#8
  | .blinkOff => 0x09#8
  | .autoscrollOn => 0x0A#8
  | .autoscrollOff => 0x0B#8
  | .leftToRight => 0x0C#8
  | .rightToLeft => 0x0D#8
  | .shiftLeft => 0x0E#8
  | .shiftRight => 0x0F#8
  | .setCursor _ _ => 0x10#8
  | .writeChar _ => 0x11#8

/-- The word an instruction is encoded as carries its row's code in bits 55:48 (R82, R83). -/
def TableCode.Statement (i : Instr) : Prop := opOf (encode i) = tableCode i

theorem TableCode.init (rs en d4 d5 d6 d7 : PinId) : TableCode.Statement (.init rs en d4 d5 d6 d7) :=
  opOf_req56 ..
theorem TableCode.clear : TableCode.Statement .clear := opOf_req56 ..
theorem TableCode.home : TableCode.Statement .home := opOf_req56 ..
theorem TableCode.displayOn : TableCode.Statement .displayOn := opOf_req56 ..
theorem TableCode.displayOff : TableCode.Statement .displayOff := opOf_req56 ..
theorem TableCode.cursorOn : TableCode.Statement .cursorOn := opOf_req56 ..
theorem TableCode.cursorOff : TableCode.Statement .cursorOff := opOf_req56 ..
theorem TableCode.blinkOn : TableCode.Statement .blinkOn := opOf_req56 ..
theorem TableCode.blinkOff : TableCode.Statement .blinkOff := opOf_req56 ..
theorem TableCode.autoscrollOn : TableCode.Statement .autoscrollOn := opOf_req56 ..
theorem TableCode.autoscrollOff : TableCode.Statement .autoscrollOff := opOf_req56 ..
theorem TableCode.leftToRight : TableCode.Statement .leftToRight := opOf_req56 ..
theorem TableCode.rightToLeft : TableCode.Statement .rightToLeft := opOf_req56 ..
theorem TableCode.shiftLeft : TableCode.Statement .shiftLeft := opOf_req56 ..
theorem TableCode.shiftRight : TableCode.Statement .shiftRight := opOf_req56 ..
theorem TableCode.setCursor (col row : Byte) : TableCode.Statement (.setCursor col row) := opOf_req56 ..
theorem TableCode.writeChar (c : Byte) : TableCode.Statement (.writeChar c) := opOf_req56 ..

end Sys2Proof.Laws
end

