-- ==== Sys2Proof/Tests/Slice0.lean ====
section
/-! SUPPORT. Tests: ill-formed requests are refused, words written out from the encoding tables decode, one
step of each operation gives the values of 95_test_vectors.md, and every statement's hypotheses are met by
a state. Expected values are the spec's, each test names the vector or rule it is taken from. -/

namespace Sys2Proof.Tests

open Sys2Proof.Machine

/-! ### Helpers -/

/-- The next state of an outcome. -/
def after : Host.Outcome State Fault Refusal → Option State
  | .next t => some t
  | .fault _ => none
  | .refused _ => none

/-- The pins of the spec's examples: (rs, en, d4, d5, d6, d7) = (1, 2, 3, 4, 5, 6). -/
def pins : PinAssignment := ⟨1#8, 2#8, 3#8, 4#8, 5#8, 6#8⟩

/-- A Ready state with these shadows, EN last written 0. -/
def ready (ctrl mode : Byte) : State :=
  { State.reset with
    phase := .ready, pin := pins, fn := 0x08#8, ctrl := ctrl, mode := mode,
    level := [(2#8, false)], trace := [.P 2#8 false] }

/-- A Ready state in the middle of an operation: its last enable pulse is still to come. -/
def busy : State := { ready 0x04#8 0x02#8 with pending := enablePulse }

/-- `NIB(b3 b2 b1 b0)` on those pins, from R111's abbreviation. -/
def nib (b3 b2 b1 b0 : Bool) : List Event :=
  [.P 3#8 b0, .P 4#8 b1, .P 5#8 b2, .P 6#8 b3,
   .P 2#8 false, .W 1, .P 2#8 true, .W 1, .P 2#8 false, .W 100]

/-- `P(RS, m)` and two nibbles, after what the state's trace held. -/
def sent (m : Bool) (high low : List Event) : List Event := .P 2#8 false :: .P 1#8 m :: (high ++ low)

/-- The shadows and the trace an operation leaves. -/
def seen (o : Host.Outcome State Fault Refusal) : Option (Byte × Byte × Byte × List Event) :=
  (after o).map fun t => (t.fn, t.ctrl, t.mode, t.trace)

/-! ### WellFormed -/

theorem test_init_wants_distinct_pins :
    (Instr.init 1#8 2#8 3#8 4#8 5#8 1#8).wellFormed = false ∧
    (Instr.init 1#8 2#8 3#8 3#8 5#8 6#8).wellFormed = false ∧
    (Instr.init 1#8 2#8 3#8 4#8 5#8 6#8).wellFormed = true := by decide

theorem test_distinctPins_refuses_two_equal : distinctPins 7#8 7#8 3#8 4#8 5#8 6#8 = false := by decide

theorem test_run_starts_with_init : wellFormedRun [.clear] = false := by decide

theorem test_run_has_one_init :
    wellFormedRun [.init 1#8 2#8 3#8 4#8 5#8 6#8, .init 1#8 2#8 3#8 4#8 5#8 6#8] = false := by decide

theorem test_run_wants_well_formed_requests :
    wellFormedRun [.init 1#8 1#8 3#8 4#8 5#8 6#8, .clear] = false ∧
    wellFormedRun [.init 1#8 2#8 3#8 4#8 5#8 6#8, .clear] = true := by decide

/-! ### Decoding: words written out from R82 and R83 -/

/-- V4: `INIT 10, 11, 4, 5, 6, 7`, bit by bit: op 0x01, then the six operand bytes. -/
theorem test_decode_init :
    decode 0b00000001000010100000101100000100000001010000011000000111#56 =
      .ok (.init 10#8 11#8 4#8 5#8 6#8 7#8) := rfl

/-- V7, bit by bit: op 0x02. -/
theorem test_decode_clear :
    decode 0b00000010000000000000000000000000000000000000000000000000#56 = .ok .clear := rfl

/-- R83, every row without operands: its `op` byte, the unused bytes 0. -/
theorem test_decode_home : decode 0x03000000000000#56 = .ok .home := rfl
theorem test_decode_display_on : decode 0x04000000000000#56 = .ok .displayOn := rfl
theorem test_decode_display_off : decode 0x05000000000000#56 = .ok .displayOff := rfl
theorem test_decode_cursor_on : decode 0x06000000000000#56 = .ok .cursorOn := rfl
theorem test_decode_cursor_off : decode 0x07000000000000#56 = .ok .cursorOff := rfl
theorem test_decode_blink_on : decode 0x08000000000000#56 = .ok .blinkOn := rfl
theorem test_decode_blink_off : decode 0x09000000000000#56 = .ok .blinkOff := rfl
theorem test_decode_autoscroll_on : decode 0x0A000000000000#56 = .ok .autoscrollOn := rfl
theorem test_decode_autoscroll_off : decode 0x0B000000000000#56 = .ok .autoscrollOff := rfl
theorem test_decode_left_to_right : decode 0x0C000000000000#56 = .ok .leftToRight := rfl
theorem test_decode_right_to_left : decode 0x0D000000000000#56 = .ok .rightToLeft := rfl
theorem test_decode_shift_left : decode 0x0E000000000000#56 = .ok .shiftLeft := rfl
theorem test_decode_shift_right : decode 0x0F000000000000#56 = .ok .shiftRight := rfl

/-- R160's example `SET_CURSOR 5, 1`, bit by bit: op 0x10, col 5, row 1. -/
theorem test_decode_set_cursor :
    decode 0b00010000000001010000000100000000000000000000000000000000#56 =
      .ok (.setCursor 5#8 1#8) := rfl

/-- R170's example `WRITE_CHAR 'H'`, bit by bit: op 0x11, c 0x48. -/
theorem test_decode_write_char :
    decode 0b00010001010010000000000000000000000000000000000000000000#56 =
      .ok (.writeChar 0x48#8) := rfl

/-- V9: the operand bytes an operation does not use are ignored. -/
theorem test_decode_ignores_unused_bytes :
    decode 0x1148FFFFFFFFFF#56 = .ok (.writeChar 0x48#8) := rfl

/-- V11: reserved codes. -/
theorem test_decode_rejects_reserved :
    decode 0x00000000000000#56 = .error (.reservedOp 0x00#8) ∧
    decode 0x12000000000000#56 = .error (.reservedOp 0x12#8) ∧
    decode 0xFF000000000000#56 = .error (.reservedOp 0xFF#8) := ⟨rfl, rfl, rfl⟩

/-- R92's example, as the word of R82: `SET_CURSOR 5, 1`. -/
theorem test_encode_set_cursor : encode (.setCursor 5#8 1#8) = 0x10050100000000#56 := by decide

/-- V4: `INIT 1, 2, 3, 4, 5, 6`. -/
theorem test_encode_init : encode (.init 1#8 2#8 3#8 4#8 5#8 6#8) = 0x01010203040506#56 := by decide

/-- The opcode table's words. -/
theorem test_decode_table_word :
    decodeTableWord 56 0x01010203040506 = some (.init 1#8 2#8 3#8 4#8 5#8 6#8) ∧
    decodeTableWord 56 0x12000000000000 = none := by decide

/-- The next step runs the word `withFetchWord` drives. -/
theorem test_step_runs_the_fetch_word :
    step (State.reset.withFetchWord 56 0x01010203040506) =
      exec (.init 1#8 2#8 3#8 4#8 5#8 6#8) State.reset := rfl

/-! ### One step of each operation -/

/-- V4: the registers and the phase INIT leaves. -/
theorem test_init_registers :
    (after (exec (.init 1#8 2#8 3#8 4#8 5#8 6#8) State.reset)).map
      (fun t => (t.phase, t.pin, t.fn, t.ctrl, t.mode)) =
      some (.ready, pins, 0x08#8, 0x04#8, 0x02#8) := by decide +kernel

/-- V4: the trace of INIT, line by line. -/
def initTrace : List (List Event) :=
  [[.W 40000, .P 1#8 false],
   nib false false true true, [.W 4100],
   nib false false true true, [.W 4100],
   nib false false true true, [.W 150],
   nib false false true false,
   [.P 1#8 false], nib false false true false, nib true false false false,
   [.P 1#8 false], nib false false false false, nib true true false false,
   [.P 1#8 false], nib false false false false, nib false false false true, [.W 2000],
   [.P 1#8 false], nib false false false false, nib false true true false]

/-- V4: the full trace of INIT. -/
theorem test_init_trace :
    (after (exec (.init 1#8 2#8 3#8 4#8 5#8 6#8) State.reset)).map (fun t => t.trace) =
      some initTrace.flatten := by decide +kernel

/-- V4: the levels INIT leaves. -/
theorem test_init_levels :
    (after (exec (.init 1#8 2#8 3#8 4#8 5#8 6#8) State.reset)).map (fun t => t.level) =
      some [(1#8, false), (2#8, false), (3#8, false), (4#8, true), (5#8, true), (6#8, false)] := by
  decide +kernel

/-- V7. -/
theorem test_clear : seen (exec .clear (ready 0x04#8 0x02#8)) =
    some (0x08#8, 0x04#8, 0x02#8,
      sent false (nib false false false false) (nib false false false true) ++ [.W 2000]) := by
  decide +kernel

/-- V7. -/
theorem test_home : seen (exec .home (ready 0x04#8 0x02#8)) =
    some (0x08#8, 0x04#8, 0x02#8,
      sent false (nib false false false false) (nib false false true false) ++ [.W 2000]) := by
  decide +kernel

/-- V5, row 0x03. -/
theorem test_display_on : seen (exec .displayOn (ready 0x03#8 0x02#8)) =
    some (0x08#8, 0x07#8, 0x02#8,
      sent false (nib false false false false) (nib true true true true)) := by decide +kernel

/-- V5, row 0x07. -/
theorem test_display_off : seen (exec .displayOff (ready 0x07#8 0x02#8)) =
    some (0x08#8, 0x03#8, 0x02#8,
      sent false (nib false false false false) (nib true false true true)) := by decide +kernel

/-- V5, row 0x05. -/
theorem test_cursor_on : seen (exec .cursorOn (ready 0x05#8 0x02#8)) =
    some (0x08#8, 0x07#8, 0x02#8,
      sent false (nib false false false false) (nib true true true true)) := by decide +kernel

/-- V5, row 0x07. -/
theorem test_cursor_off : seen (exec .cursorOff (ready 0x07#8 0x02#8)) =
    some (0x08#8, 0x05#8, 0x02#8,
      sent false (nib false false false false) (nib true true false true)) := by decide +kernel

/-- V5, row 0x02. -/
theorem test_blink_on : seen (exec .blinkOn (ready 0x02#8 0x02#8)) =
    some (0x08#8, 0x03#8, 0x02#8,
      sent false (nib false false false false) (nib true false true true)) := by decide +kernel

/-- V5, row 0x07. -/
theorem test_blink_off : seen (exec .blinkOff (ready 0x07#8 0x02#8)) =
    some (0x08#8, 0x06#8, 0x02#8,
      sent false (nib false false false false) (nib true true true false)) := by decide +kernel

/-- V6, row 0x02. -/
theorem test_autoscroll_on : seen (exec .autoscrollOn (ready 0x04#8 0x02#8)) =
    some (0x08#8, 0x04#8, 0x03#8,
      sent false (nib false false false false) (nib false true true true)) := by decide +kernel

/-- V6, row 0x03. -/
theorem test_autoscroll_off : seen (exec .autoscrollOff (ready 0x04#8 0x03#8)) =
    some (0x08#8, 0x04#8, 0x02#8,
      sent false (nib false false false false) (nib false true true false)) := by decide +kernel

/-- V6, row 0x01. -/
theorem test_left_to_right : seen (exec .leftToRight (ready 0x04#8 0x01#8)) =
    some (0x08#8, 0x04#8, 0x03#8,
      sent false (nib false false false false) (nib false true true true)) := by decide +kernel

/-- V6, row 0x03. -/
theorem test_right_to_left : seen (exec .rightToLeft (ready 0x04#8 0x03#8)) =
    some (0x08#8, 0x04#8, 0x01#8,
      sent false (nib false false false false) (nib false true false true)) := by decide +kernel

/-- V7. -/
theorem test_shift_left : seen (exec .shiftLeft (ready 0x04#8 0x02#8)) =
    some (0x08#8, 0x04#8, 0x02#8,
      sent false (nib false false false true) (nib true false false false)) := by decide +kernel

/-- V7. -/
theorem test_shift_right : seen (exec .shiftRight (ready 0x04#8 0x02#8)) =
    some (0x08#8, 0x04#8, 0x02#8,
      sent false (nib false false false true) (nib true true false false)) := by decide +kernel

/-- V8: `col` 255, `row` 1 wraps and sends 0xBF. -/
theorem test_set_cursor_wraps : seen (exec (.setCursor 255#8 1#8) (ready 0x04#8 0x02#8)) =
    some (0x08#8, 0x04#8, 0x02#8,
      sent false (nib true false true true) (nib true true true true)) := by decide +kernel

/-- V8: boundary columns and clamped rows. -/
theorem test_set_cursor_bytes :
    cursorCommand 127#8 0#8 = 0xFF#8 ∧ cursorCommand 128#8 0#8 = 0x80#8 ∧
    cursorCommand 63#8 1#8 = 0xFF#8 ∧ cursorCommand 192#8 1#8 = 0x80#8 ∧
    cursorCommand 7#8 2#8 = 0xC7#8 ∧ cursorCommand 7#8 255#8 = 0xC7#8 := by decide

/-- V9: a character code that looks like an address command. -/
theorem test_write_char : seen (exec (.writeChar 0x80#8) (ready 0x04#8 0x02#8)) =
    some (0x08#8, 0x04#8, 0x02#8,
      sent true (nib true false false false) (nib false false false false)) := by decide +kernel

/-- V2: bit 0 of the nibble goes to D4, bit 3 to D7. -/
theorem test_transmit_nibble :
    (perform (transmitNibble 0x3#4) { State.reset with pin := pins }).trace =
      [.P 3#8 true, .P 4#8 true, .P 5#8 false, .P 6#8 false,
       .P 2#8 false, .W 1, .P 2#8 true, .W 1, .P 2#8 false, .W 100] := by decide +kernel

/-! ### Refusals, reset, observation, pseudo-operations -/

/-- V11: CLEAR before INIT; no event, the phase stays, the mark is set. -/
theorem test_clear_before_init_is_refused :
    after (exec .clear State.reset) =
      some { State.reset with refused := true, refusals := [.beforeInit] } := by decide +kernel

/-- V11: INIT when Ready. -/
theorem test_second_init_is_refused :
    after (exec (.init 9#8 8#8 7#8 6#8 5#8 4#8) (ready 0x04#8 0x02#8)) =
      some { ready 0x04#8 0x02#8 with refused := true, refusals := [.initWhenReady] } := by decide +kernel

/-- V11: a reserved word, in either phase. -/
theorem test_reserved_word_is_refused :
    after (step { State.reset with port := [.request .whole 0x12000000000000#56] }) =
      some { State.reset with refused := true, refusals := [.reservedRequest 0x12000000000000#56] } ∧
    after (step { ready 0x04#8 0x02#8 with port := [.request .stepped 0xFF000000000000#56] }) =
      some { ready 0x04#8 0x02#8 with
        refused := true, refusals := [.reservedRequest 0xFF000000000000#56] } := by decide +kernel

/-- R202 code 4: a second requester does not wait. -/
theorem test_rival_is_refused :
    after (step { busy with port := [.rival 0x02000000000000#56] }) =
      some { busy with refused := true, refusals := [.interleaved] } := by decide +kernel

/-- R244: reset after `P(EN,1)` leaves the operation, and writes no pin. -/
theorem test_reset_cuts_a_pulse :
    after (step { busy with pending := enablePulse.drop 3, port := [.reset] }) = some State.reset := by
  decide +kernel

/-- R30: one event a step, and R33: then nothing is in flight. -/
theorem test_last_event_ends_the_operation :
    after (step { busy with pending := [.delayUs 100] }) =
      some { busy with pending := [], trace := [.P 2#8 false, .W 100] } := by decide +kernel

/-- V3, V9: the beats of a byte. -/
theorem test_beats_of_a_character :
    beatsFrom pins [] (sendEvents pins 0x48#8 true) = some [⟨true, 0x4#4⟩, ⟨true, 0x8#4⟩] := by decide +kernel

/-- R112: the beats of INIT. -/
theorem test_beats_of_init :
    beats pins (initEvents pins) = some
      [⟨false, 0x3#4⟩, ⟨false, 0x3#4⟩, ⟨false, 0x3#4⟩, ⟨false, 0x2#4⟩, ⟨false, 0x2#4⟩, ⟨false, 0x8#4⟩,
       ⟨false, 0x0#4⟩, ⟨false, 0xC#4⟩, ⟨false, 0x0#4⟩, ⟨false, 0x1#4⟩, ⟨false, 0x0#4⟩, ⟨false, 0x6#4⟩] := by
  decide +kernel

/-- V10: bytes 0x41 0x00 0x42 send 0x41 only. -/
theorem test_write_string_stops_at_terminator :
    writeString [0x41#8, 0x00#8, 0x42#8] = .ok [.writeChar 0x41#8] := rfl

/-- V10: `WRITE_INT 42`. -/
theorem test_write_int : writeInt 42 = .ok [.writeChar 0x34#8, .writeChar 0x32#8] := rfl

/-! ### Witnesses: the hypotheses of each statement, met by a state -/

theorem witness_AcceptedWordRunsItsInstruction :
    let s : State := { ready 0x04#8 0x02#8 with port := [.request .whole 0x11480000000000#56] }
    s.port = .request .whole 0x11480000000000#56 :: [] ∧ reqReady s = true ∧
    decode 0x11480000000000#56 = .ok (.writeChar 0x48#8) := ⟨rfl, rfl, rfl⟩

theorem witness_BusyTransmitterIgnoresRequests :
    let s : State := { busy with port := [.request .whole 0x02000000000000#56, .idle] }
    s.port = .request .whole 0x02000000000000#56 :: [.idle] ∧ reqReady s = false := ⟨rfl, rfl⟩

theorem witness_ReservedWordIsRefusedWithItsWord :
    let s : RequestWord → State := fun w => { ready 0x04#8 0x02#8 with port := [.request .stepped w] }
    (∀ w, (s w).port = .request .stepped w :: [] ∧ reqReady (s w) = true) ∧
    opOf 0x00123456789ABC#56 = 0x00#8 ∧
    0x12 ≤ (opOf 0x12000000000000#56).toNat ∧ 0x12 ≤ (opOf 0xFF000000000000#56).toNat :=
  ⟨fun _ => ⟨rfl, rfl⟩, by decide, by decide, by decide⟩

theorem witness_EncodeOfDecodeKeepsOpAndOperands :
    decode 0x1003FF11223344#56 = .ok (.setCursor 3#8 255#8) := rfl

theorem witness_ReservedCodesAreExactlyTheRejectedOnes :
    decode 0x12345678901234#56 = .error (.reservedOp 0x12#8) ∧
    opOf 0x00000000000000#56 = 0x00#8 ∧ 0x12 ≤ (opOf 0x12000000000000#56).toNat :=
  ⟨rfl, by decide, by decide⟩

theorem witness_HardwareResetAbandonsWhateverRuns :
    ({ busy with port := [.reset, .idle] } : State).port = .reset :: [.idle] := rfl

theorem witness_InitRunsTheInitializationSequence :
    opOf 0x01010203040506#56 = 0x01#8 ∧
    (reqReady State.reset = true ∧ State.reset.phase = .uninitialized) ∧
    (reqReady (ready 0x07#8 0x03#8) = true ∧ (ready 0x07#8 0x03#8).phase = .ready) := by decide

theorem witness_InitForgetsTheUnspecifiedRegisters :
    reqReady State.reset = true ∧ State.reset.phase = .uninitialized := by decide

/-- Codes of the display-control operations, a state before INIT and a Ready state. -/
theorem witness_DisplayControlOperationsSetOrClearOneBit :
    opOf 0x04000000000000#56 = 0x04#8 ∧ opOf 0x05000000000000#56 = 0x05#8 ∧
    opOf 0x06000000000000#56 = 0x06#8 ∧ opOf 0x07000000000000#56 = 0x07#8 ∧
    opOf 0x08000000000000#56 = 0x08#8 ∧ opOf 0x09000000000000#56 = 0x09#8 ∧
    (reqReady State.reset = true ∧ State.reset.phase = .uninitialized) ∧
    (reqReady (ready 0x00#8 0x00#8) = true ∧ (ready 0x00#8 0x00#8).phase = .ready) := by decide

theorem witness_EntryModeOperationsSetOrClearOneBit :
    opOf 0x0A000000000000#56 = 0x0A#8 ∧ opOf 0x0B000000000000#56 = 0x0B#8 ∧
    opOf 0x0C000000000000#56 = 0x0C#8 ∧ opOf 0x0D000000000000#56 = 0x0D#8 ∧
    (reqReady State.reset = true ∧ State.reset.phase = .uninitialized) ∧
    (reqReady (ready 0x07#8 0x03#8) = true ∧ (ready 0x07#8 0x03#8).phase = .ready) := by decide

theorem witness_ClearAndHomeSendAndThenWait :
    opOf 0x02000000000000#56 = 0x02#8 ∧ opOf 0x03000000000000#56 = 0x03#8 ∧
    (reqReady State.reset = true ∧ State.reset.phase = .uninitialized) ∧
    (reqReady (ready 0x04#8 0x02#8) = true ∧ (ready 0x04#8 0x02#8).phase = .ready) := by decide

theorem witness_ShiftsSendOneCommandAndKeepEveryRegister :
    opOf 0x0E000000000000#56 = 0x0E#8 ∧ opOf 0x0F000000000000#56 = 0x0F#8 ∧
    (reqReady State.reset = true ∧ State.reset.phase = .uninitialized) ∧
    (reqReady (ready 0x04#8 0x02#8) = true ∧ (ready 0x04#8 0x02#8).phase = .ready) := by decide

theorem witness_SetCursorSendsTheClampedAddress :
    opOf 0x10FF0100000000#56 = 0x10#8 ∧
    (reqReady State.reset = true ∧ State.reset.phase = .uninitialized) ∧
    (reqReady (ready 0x04#8 0x02#8) = true ∧ (ready 0x04#8 0x02#8).phase = .ready) := by decide

theorem witness_WriteCharSendsItsByteAsData :
    opOf 0x11000000000000#56 = 0x11#8 ∧
    (reqReady State.reset = true ∧ State.reset.phase = .uninitialized) ∧
    (reqReady (ready 0x04#8 0x02#8) = true ∧ (ready 0x04#8 0x02#8).phase = .ready) := by decide

theorem witness_WriteCharSendsItsByteAsData_others :
    ∃ t es, (∀ c, Instr.shiftLeft ≠ .writeChar c) ∧ exec .shiftLeft (ready 0x04#8 0x02#8) = .next t ∧
      t.trace = (ready 0x04#8 0x02#8).trace ++ es ∧ pinsDistinct t.pin = true :=
  ⟨_, sendEvents pins 0x18#8 false, by simp, rfl, by decide +kernel, by decide⟩

theorem witness_RefusalRecordsItsReason :
    (Instr.clear.isInit = false ∧ reqReady State.reset = true ∧ State.reset.phase = .uninitialized) ∧
    ((Instr.init 1#8 1#8 1#8 1#8 1#8 1#8).isInit = true ∧ reqReady (ready 0x04#8 0x02#8) = true ∧
      (ready 0x04#8 0x02#8).phase = .ready) ∧
    reqReady busy = false := by decide

theorem witness_RefusedMarkIsStickyUntilReset :
    let s : State := { ready 0x04#8 0x02#8 with
      refused := true, refusals := [.beforeInit], port := [.request .whole 0x02000000000000#56] }
    (∃ t, step s = .next t) ∧ s.port.head? ≠ some .reset ∧ s.refused = true :=
  ⟨⟨_, rfl⟩, by decide, rfl⟩

theorem witness_OnlyInitChangesThePhase :
    ∃ t, exec (.init 1#8 2#8 3#8 4#8 5#8 6#8) State.reset = .next t ∧ t.phase ≠ State.reset.phase :=
  ⟨_, rfl, by decide⟩

/-- An operation that changes `ctrl` and one that changes `mode`. -/
theorem witness_RegistersChangeOnlyByTheirOperations :
    (∃ t, exec .blinkOn (ready 0x04#8 0x02#8) = .next t ∧ Instr.blinkOn.isInit = false ∧
      t.ctrl ≠ (ready 0x04#8 0x02#8).ctrl) ∧
    (∃ t, exec .autoscrollOn (ready 0x04#8 0x02#8) = .next t ∧ Instr.autoscrollOn.isInit = false ∧
      t.mode ≠ (ready 0x04#8 0x02#8).mode) :=
  ⟨⟨_, rfl, rfl, by decide⟩, ⟨_, rfl, rfl, by decide⟩⟩

theorem witness_TraceOnlyGrowsUntilReset :
    (∃ t, step busy = .next t) ∧ busy.port.head? ≠ some .reset := ⟨⟨_, rfl⟩, by decide⟩

theorem witness_OtherPinsKeepTheirLevels :
    ∃ t, exec .clear (ready 0x04#8 0x02#8) = .next t ∧
      0#8 ∉ [t.pin.rs, t.pin.en, t.pin.d4, t.pin.d5, t.pin.d6, t.pin.d7] ∧
      255#8 ∉ [t.pin.rs, t.pin.en, t.pin.d4, t.pin.d5, t.pin.d6, t.pin.d7] :=
  ⟨_, rfl, by decide, by decide⟩

theorem witness_LinesHoldTheLastNibble :
    Instr.home.isInit = false ∧ reqReady (ready 0x04#8 0x02#8) = true ∧
    (ready 0x04#8 0x02#8).phase = .ready ∧ pinsDistinct (ready 0x04#8 0x02#8).pin = true ∧
    (∃ t, exec .home (ready 0x04#8 0x02#8) = .next t) ∧
    bytesSent .home (0x04#8, 0x02#8) = [⟨false, 0x02#8⟩] :=
  ⟨rfl, rfl, rfl, by decide, ⟨_, rfl⟩, rfl⟩

theorem witness_InitLeavesTheseLevels :
    reqReady State.reset = true ∧ State.reset.phase = .uninitialized ∧
    distinctPins 0#8 255#8 3#8 4#8 5#8 6#8 = true := by decide

/-- The invariant holds in a Ready state at the edge of its ranges, and in the middle of an operation. -/
theorem witness_EveryStepKeepsTheInvariant :
    (Inv (ready 0x07#8 0x03#8) ∧ ∃ t, step (ready 0x07#8 0x03#8) = .next t) ∧
    (Inv busy ∧ ∃ t, step busy = .next t) :=
  ⟨⟨⟨by decide, by decide, by decide, fun _ => by decide +kernel⟩, _, rfl⟩,
   ⟨⟨by decide, by decide, by decide, fun _ => by decide +kernel⟩, _, rfl⟩⟩

theorem witness_SteppedRunReachesTheWholeRunsState :
    reqReady (ready 0x04#8 0x02#8) = true ∧
    (∃ t, step { ready 0x04#8 0x02#8 with port := [.request .whole 0x02000000000000#56] } = .next t) ∧
    reqReady State.reset = true ∧
    ∃ t, step { State.reset with port := [.request .whole 0x01010203040506#56] } = .next t :=
  ⟨rfl, ⟨_, rfl⟩, rfl, ⟨_, rfl⟩⟩

theorem witness_MidOperationTraceIsAPrefix :
    reqReady (ready 0x04#8 0x02#8) = true ∧
    ∃ t, step { ready 0x04#8 0x02#8 with port := [.request .whole 0x0A000000000000#56] } = .next t :=
  ⟨rfl, ⟨_, rfl⟩⟩

theorem witness_SmallStepEmitsOneEvent : busy.pending.any isEvent = true := by decide

theorem witness_ResetMayCutAnOperationAnywhere : reqReady (ready 0x04#8 0x02#8) = true := by decide

/-- EN unknown and EN at 0 before the byte. -/
theorem witness_SendGivesTwoBeatsHighNibbleFirst :
    let s : State := { State.reset with pin := pins }
    (pinsDistinct s.pin = true ∧ readLevel s.level s.pin.en ≠ some true) ∧
    pinsDistinct (ready 0x04#8 0x02#8).pin = true ∧
    readLevel (ready 0x04#8 0x02#8).level (ready 0x04#8 0x02#8).pin.en ≠ some true := by decide

theorem witness_EveryOperationIsOneByteAndItsWait :
    Instr.clear.isInit = false ∧ (Instr.writeChar 0xFF#8).isInit = false ∧
    reqReady (ready 0x00#8 0x00#8) = true ∧ (ready 0x00#8 0x00#8).phase = .ready := by decide

theorem witness_RunSendsTheBytesOfItsOperations :
    wellFormedRun (.init 1#8 2#8 3#8 4#8 5#8 6#8 ::
      [.setCursor 0#8 0#8, .writeChar 0x48#8, .clear, .cursorOn]) = true := by decide

/-- Clause RS = 1, clause RS = 0 with `ctrl` = 0x07 and `mode` = 0x03, and INIT. -/
theorem witness_ForbiddenCommandsAreNeverSent :
    (reqReady (ready 0x07#8 0x03#8) = true ∧ (ready 0x07#8 0x03#8).phase = .ready ∧
      readyOk (ready 0x07#8 0x03#8)) ∧
    (∃ t, exec (.writeChar 0x00#8) (ready 0x07#8 0x03#8) = .next t ∧
      t.trace = (ready 0x07#8 0x03#8).trace ++ sendEvents pins 0x00#8 true ++ waitsAfter (.writeChar 0x00#8)) ∧
    (∃ t, exec .displayOn (ready 0x07#8 0x03#8) = .next t ∧
      t.trace = (ready 0x07#8 0x03#8).trace ++ sendEvents pins 0x0F#8 false ++ waitsAfter .displayOn) ∧
    (reqReady State.reset = true ∧ State.reset.phase = .uninitialized) :=
  ⟨⟨rfl, rfl, fun _ => by decide⟩, ⟨_, rfl, by decide +kernel⟩, ⟨_, rfl, by decide +kernel⟩, rfl, rfl⟩

/-- INIT, and an operation of phase Ready. -/
theorem witness_PulsesAreFixedInNumberAndShape :
    (∃ t, exec (.init 1#8 2#8 3#8 4#8 5#8 6#8) State.reset = .next t ∧
      t.trace = State.reset.trace ++ initEvents pins ∧ initEvents pins ≠ [] ∧
      pinsDistinct t.pin = true) ∧
    (∃ t, exec .shiftRight (ready 0x04#8 0x02#8) = .next t ∧
      t.trace = (ready 0x04#8 0x02#8).trace ++ sendEvents pins 0x1C#8 false ∧
      sendEvents pins 0x1C#8 false ≠ [] ∧ pinsDistinct t.pin = true) :=
  ⟨⟨_, rfl, by decide +kernel, by decide, by decide⟩, ⟨_, rfl, by decide +kernel, by decide, by decide⟩⟩

theorem witness_LinesAreSteadyWhileEnableIsHigh :
    ∃ t, exec .shiftRight (ready 0x04#8 0x02#8) = .next t ∧
      t.trace = (ready 0x04#8 0x02#8).trace ++ sendEvents pins 0x1C#8 false ∧
      pinsDistinct t.pin = true ∧ readLevel (ready 0x04#8 0x02#8).level t.pin.en ≠ some true :=
  ⟨_, rfl, by decide +kernel, by decide, by decide⟩

theorem witness_ModeOperationsAreIdempotent :
    Instr.cursorOn ∈ modeOperations ∧ reqReady (ready 0x04#8 0x02#8) = true ∧
    (ready 0x04#8 0x02#8).phase = .ready ∧
    ∃ t u, exec .cursorOn (ready 0x04#8 0x02#8) = .next t ∧ exec .cursorOn t = .next u :=
  ⟨by decide, rfl, rfl, _, _, rfl, rfl⟩

theorem witness_DisplayOnThenOffClearsOnlyTheOnBit :
    reqReady (ready 0x03#8 0x02#8) = true ∧ (ready 0x03#8 0x02#8).phase = .ready ∧
    ∃ t u, exec .displayOn (ready 0x03#8 0x02#8) = .next t ∧ exec .displayOff t = .next u :=
  ⟨rfl, rfl, _, _, rfl, rfl⟩

/-- Two bits of one register, and bits of the two registers. -/
theorem witness_ModeOperationsOnDifferentBitsCommute :
    Instr.cursorOn ∈ modeOperations ∧ Instr.blinkOff ∈ modeOperations ∧
    Instr.autoscrollOn ∈ modeOperations ∧
    modeBit .cursorOn ≠ modeBit .blinkOff ∧ modeBit .cursorOn ≠ modeBit .autoscrollOn ∧
    reqReady (ready 0x05#8 0x02#8) = true ∧ (ready 0x05#8 0x02#8).phase = .ready ∧
    (∃ t u, exec .cursorOn (ready 0x05#8 0x02#8) = .next t ∧ exec .blinkOff t = .next u) ∧
    (∃ t u, exec .blinkOff (ready 0x05#8 0x02#8) = .next t ∧ exec .cursorOn t = .next u) :=
  ⟨by decide, by decide, by decide, by decide, by decide, rfl, rfl, ⟨_, _, rfl, rfl⟩, ⟨_, _, rfl, rfl⟩⟩

theorem witness_RowsAboveOneActAsRowOne :
    1 ≤ (1#8 : Byte).toNat ∧ 1 ≤ (2#8 : Byte).toNat ∧ 1 ≤ (255#8 : Byte).toNat ∧
    reqReady (ready 0x04#8 0x02#8) = true ∧ (ready 0x04#8 0x02#8).phase = .ready := by decide

theorem witness_WriteStringExpandsToItsCharacters :
    0x00#8 ∉ ([0x48#8, 0x49#8] : List Byte) ∧ 0x00#8 ∉ ([] : List Byte) := by decide

theorem witness_StringOfKCharactersAppends21KEvents :
    reqReady (ready 0x04#8 0x02#8) = true ∧ (ready 0x04#8 0x02#8).phase = .ready := by decide

/-- Busy with a request's word and with a reserved one, and idle with a request's word. -/
theorem witness_SecondRequesterIsRefusedWhileBusy :
    ({ busy with port := [.rival 0x02000000000000#56] } : State).port = .rival 0x02000000000000#56 :: [] ∧
    decode 0x02000000000000#56 = .ok .clear ∧ reqReady busy = false ∧
    reqReady (ready 0x04#8 0x02#8) = true ∧
    opOf 0x00FFFFFFFFFFFF#56 = 0x00#8 ∧ 0x12 ≤ (opOf 0x12000000000000#56).toNat :=
  ⟨rfl, rfl, rfl, rfl, by decide, by decide⟩

/-- A pair of each register. -/
theorem witness_EverySetClearPairClearsOnlyItsBit :
    ((Instr.blinkOn, Instr.blinkOff) ∈ setClearPairs ∧ modeBit .blinkOn = some (.ctrl, 0x01#8)) ∧
    ((Instr.leftToRight, Instr.rightToLeft) ∈ setClearPairs ∧ modeBit .leftToRight = some (.mode, 0x02#8)) ∧
    reqReady (ready 0x07#8 0x01#8) = true ∧ (ready 0x07#8 0x01#8).phase = .ready ∧
    (∃ t u, exec .blinkOn (ready 0x07#8 0x01#8) = .next t ∧ exec .blinkOff t = .next u) ∧
    (∃ t u, exec .leftToRight (ready 0x07#8 0x01#8) = .next t ∧ exec .rightToLeft t = .next u) :=
  ⟨⟨by decide, rfl⟩, ⟨by decide, rfl⟩, rfl, rfl, ⟨_, _, rfl, rfl⟩, ⟨_, _, rfl, rfl⟩⟩

end Sys2Proof.Tests
end

namespace Sys2Proof.Machine

/-! ### The events of the primitives and of SEND (46_send.md R180 to R182), and their waits (R250) -/

/-- Actions that are all events write no pin register. -/
theorem pinsAfter_of_events {as : List Action} (h : as.all isEvent) (a : PinAssignment) :
    pinsAfter a as = a := by
  induction as with
  | nil => rfl
  | cons x as ih => cases x <;> simp_all [pinsAfter, isEvent]

@[simp] theorem pinsAfter_transmitNibble (a : PinAssignment) (n : Nibble) :
    pinsAfter a (transmitNibble n) = a :=
  pinsAfter_of_events rfl a

@[simp] theorem pinsAfter_send (a : PinAssignment) (v : Byte) (m : Level) : pinsAfter a (send v m) = a :=
  pinsAfter_of_events rfl a

@[simp] theorem eventsOf_transmitNibble (a : PinAssignment) (n : Nibble) :
    eventsOf a (transmitNibble n) = nibEvents a n := rfl

/-- SEND is RS, then the ten events of each nibble, the high one first (R182). -/
theorem eventsOf_send_nibbles (a : PinAssignment) (v : Byte) (m : Level) :
    eventsOf a (send v m) = .P a.rs m :: nibEvents a (highNibble v) ++ nibEvents a (lowNibble v) := by
  simp [send, eventsOf, eventsOf_append, pinOf]

@[simp] theorem minDuration_nil : minDuration [] = 0 := rfl

@[simp] theorem minDuration_cons_P (p : PinId) (l : Level) (es : List Event) :
    minDuration (.P p l :: es) = minDuration es := by
  simp [minDuration, waitOf]

@[simp] theorem minDuration_cons_W (n : Nat) (es : List Event) :
    minDuration (.W n :: es) = n + minDuration es := by
  simp [minDuration, waitOf]

/-! ### INIT (40_init.md R110, R111) -/

theorem decode_of_opOf_init {w : RequestWord} (h : opOf w = 0x01#8) :
    decode w = .ok (.init (a0Of w) (a1Of w) (a2Of w) (a3Of w) (a4Of w) (a5Of w)) := by
  simp [decode, h]

theorem pinsAfter_resyncActions (a : PinAssignment) : pinsAfter a resyncActions = a :=
  pinsAfter_of_events rfl a

/-- Rows 1 to 9 of R111's table. -/
theorem eventsOf_resyncActions (a : PinAssignment) : eventsOf a resyncActions = resyncEvents a := by
  simp [resyncActions, resyncEvents, eventsOf_append, eventsOf, pinOf, config]

/-- Rows 10 to 14 of R111's table: the bytes 0x28, 0x0C, 0x01 and 0x06, nibble by nibble. -/
theorem eventsOf_configureActions (a : PinAssignment) :
    eventsOf a configureActions = configureEvents a := by
  have hfunction : functionCommand config.fn2Line = 0b0010#4 ++ 0b1000#4 := rfl
  have hdisplay : displayCommand config.dispOn = 0b0000#4 ++ 0b1100#4 := rfl
  have hclear : config.cmdClear = 0b0000#4 ++ 0b0001#4 := rfl
  have hentry : entryCommand config.entryLeft = 0b0000#4 ++ 0b0110#4 := rfl
  have hrs : config.modeInstr = false := rfl
  have hwait : config.tClearHome = 2000 := rfl
  simp [configureActions, configureEvents, eventsOf_append, eventsOf, eventsOf_send_nibbles,
    highNibble, lowNibble, hfunction, hdisplay, hclear, hentry, hrs, hwait]

/-- The events of INIT go to the pins its operands name (R111). -/
theorem eventsOf_initActions (a : PinAssignment) (rs en d4 d5 d6 d7 : PinId) :
    eventsOf a (initActions rs en d4 d5 d6 d7) = initEvents ⟨rs, en, d4, d5, d6, d7⟩ := by
  simp [initActions, initEvents, eventsOf, eventsOf_append, pinsAfter_resyncActions,
    eventsOf_resyncActions, eventsOf_configureActions]

/-- Everything INIT does (R110): its events are R111's, its registers the last ones the list assigns. -/
theorem perform_initActions (rs en d4 d5 d6 d7 : PinId) (s : State) :
    perform (initActions rs en d4 d5 d6 d7) s = { s with
      pin := ⟨rs, en, d4, d5, d6, d7⟩, fn := 0x08#8, ctrl := 0x04#8, mode := 0x02#8, phase := .ready,
      trace := s.trace ++ initEvents ⟨rs, en, d4, d5, d6, d7⟩,
      level := replay s.level (initEvents ⟨rs, en, d4, d5, d6, d7⟩) } := by
  rw [perform_eq, eventsOf_initActions]
  rfl

theorem exec_init_of_uninitialized (rs en d4 d5 d6 d7 : PinId) {s : State} (hidle : reqReady s = true)
    (hphase : s.phase = .uninitialized) :
    exec (.init rs en d4 d5 d6 d7) s = .next (perform (initActions rs en d4 d5 d6 d7) s) := by
  simp [exec_eq, refusalOf, operationActions, hidle, hphase]

theorem exec_init_of_ready (rs en d4 d5 d6 d7 : PinId) {s : State} (hidle : reqReady s = true)
    (hphase : s.phase = .ready) :
    exec (.init rs en d4 d5 d6 d7) s = .next (refuse .initWhenReady s) := by
  simp [exec_eq, refusalOf, hidle, hphase]

theorem initEvents_length (a : PinAssignment) : (initEvents a).length = 130 := by
  simp [initEvents, resyncEvents, configureEvents]

/-- 40000 + 2 * 4100 + 150 + 2000 between the transfers, and 102 for each of the twelve nibbles (R111). -/
theorem minDuration_initEvents (a : PinAssignment) : minDuration (initEvents a) = 51574 := by
  simp [initEvents, resyncEvents, configureEvents, minDuration_append]

/-- Settles O13: the code by `decode`, the effect and the refusal by the phase check, the 130 events and
their duration by adding up R111's table. -/
theorem initRunsTheInitializationSequence : Obligations.InitRunsTheInitializationSequence := by
  unfold Obligations.InitRunsTheInitializationSequence
  refine ⟨fun w hop => decode_of_opOf_init hop, ?_, ?_, ?_⟩
  · intro rs en d4 d5 d6 d7 s hidle hphase
    rw [exec_init_of_uninitialized rs en d4 d5 d6 d7 hidle hphase, perform_initActions]
  · exact fun a => ⟨initEvents_length a, minDuration_initEvents a⟩
  · intro rs en d4 d5 d6 d7 s hidle hphase
    exact ⟨_, exec_init_of_ready rs en d4 d5 d6 d7 hidle hphase⟩

end Sys2Proof.Machine

namespace Sys2Proof.Machine

/-! ### Codes and the phase check (30_encoding.md R83, 60_exceptions.md R202, R216) -/

/-- A request without operands is read from its code alone (R83, R94). -/
theorem hasCode_of_operandBytes_eq_zero {i : Instr} (h : i.operandBytes = 0) :
    HasCode (Laws.tableCode i) i := by
  intro w hop
  cases i with
  | init | setCursor | writeChar => cases h
  | _ => simp [decode, hop, Laws.tableCode]

theorem refusalOf_of_uninitialized {i : Instr} {s : State} (hi : i.isInit = false)
    (hidle : reqReady s = true) (hphase : s.phase = .uninitialized) :
    refusalOf i s = some .beforeInit := by
  cases i with
  | init => cases hi
  | _ => simp [refusalOf, hidle, hphase]

theorem refusalOf_of_ready {i : Instr} {s : State} (hi : i.isInit = false)
    (hidle : reqReady s = true) (hphase : s.phase = .ready) : refusalOf i s = none := by
  cases i with
  | init => cases hi
  | _ => simp [refusalOf, hidle, hphase]

theorem exec_of_uninitialized {i : Instr} {s : State} (hi : i.isInit = false)
    (hidle : reqReady s = true) (hphase : s.phase = .uninitialized) :
    exec i s = .next (refuse .beforeInit s) := by
  rw [exec_eq, refusalOf_of_uninitialized hi hidle hphase]

theorem exec_of_ready {i : Instr} {s : State} (hi : i.isInit = false)
    (hidle : reqReady s = true) (hphase : s.phase = .ready) :
    exec i s = .next (perform (operationActions i s) s) := by
  rw [exec_eq, refusalOf_of_ready hi hidle hphase]

/-- Every operation but INIT is refused before INIT (R204). -/
theorem refusedBeforeInit_of_not_init {i : Instr} (hi : i.isInit = false) : RefusedBeforeInit i :=
  fun _ hidle hphase => ⟨_, exec_of_uninitialized hi hidle hphase⟩

/-- An operation of phase Ready has the effect its list of actions has. -/
theorem completes_of_perform {i : Instr} {effect : State → State} (hi : i.isInit = false)
    (h : ∀ s, perform (operationActions i s) s = effect s) : Completes i effect := by
  intro s hidle hphase
  rw [exec_of_ready hi hidle hphase, h]

/-! ### What SEND and the two forms of a mode operation do (46_send.md R182, 41_mode_toggles.md R120) -/

/-- SEND's two nibbles are bits 7 to 4 and bits 3 to 0 of the byte (R182). -/
theorem eventsOf_send (a : PinAssignment) (v : Byte) (m : Level) :
    eventsOf a (send v m) = sendEvents a v m := by
  have hhigh : ∀ k < 4, (highNibble v).getLsbD k = v.getLsbD (4 + k) := nibbleBit_highNibble v
  have hlow : ∀ k < 4, (lowNibble v).getLsbD k = v.getLsbD k := nibbleBit_lowNibble v
  simp (disch := decide) only [eventsOf_send_nibbles, nibEvents, sendEvents, hhigh, hlow,
    Nat.reduceAdd, List.cons_append, List.nil_append]

/-- SEND emits its events and changes nothing else (R182). -/
theorem perform_send (v : Byte) (m : Level) (s : State) :
    perform (send v m) s = afterEvents s (sendEvents s.pin v m) := by
  rw [perform_eq, eventsOf_send]
  rfl

theorem perform_changeDisplay (v : Byte) (s : State) :
    perform (changeDisplay v) s = afterDisplay s v := by
  have hbyte : displayCommand v = 0x08#8 ||| v := rfl
  have hrs : config.modeInstr = false := rfl
  simp [changeDisplay, perform_cons, perform_send, hbyte, hrs, afterDisplay, afterEvents]

theorem perform_changeEntry (v : Byte) (s : State) :
    perform (changeEntry v) s = afterEntry s v := by
  have hbyte : entryCommand v = 0x04#8 ||| v := rfl
  have hrs : config.modeInstr = false := rfl
  simp [changeEntry, perform_cons, perform_send, hbyte, hrs, afterEntry, afterEvents]

/-! ### The ten mode operations (41_mode_toggles.md R121 to R130) -/

/-- An operation that replaces `ctrl` by `f ctrl`: its code, its refusal, its effect. -/
theorem displayOperation_spec (i : Instr) (f : Byte → Byte) (hoperands : i.operandBytes = 0)
    (hi : i.isInit = false) (hacts : ∀ s, operationActions i s = changeDisplay (f s.ctrl)) :
    HasCode (Laws.tableCode i) i ∧ RefusedBeforeInit i ∧
      Completes i fun s => afterDisplay s (f s.ctrl) :=
  ⟨hasCode_of_operandBytes_eq_zero hoperands, refusedBeforeInit_of_not_init hi,
    completes_of_perform hi fun s => by rw [hacts, perform_changeDisplay]⟩

/-- An operation that replaces `mode` by `f mode`: its code, its refusal, its effect. -/
theorem entryOperation_spec (i : Instr) (f : Byte → Byte) (hoperands : i.operandBytes = 0)
    (hi : i.isInit = false) (hacts : ∀ s, operationActions i s = changeEntry (f s.mode)) :
    HasCode (Laws.tableCode i) i ∧ RefusedBeforeInit i ∧
      Completes i fun s => afterEntry s (f s.mode) :=
  ⟨hasCode_of_operandBytes_eq_zero hoperands, refusedBeforeInit_of_not_init hi,
    completes_of_perform hi fun s => by rw [hacts, perform_changeEntry]⟩

/-- Settles O15: each operation is `changeDisplay` with its bit set, or masked by the 8-bit complement
of its bit (0xFB, 0xFD, 0xFE). -/
theorem displayControlOperationsSetOrClearOneBit :
    Obligations.DisplayControlOperationsSetOrClearOneBit := by
  unfold Obligations.DisplayControlOperationsSetOrClearOneBit
  exact ⟨displayOperation_spec .displayOn (· ||| 0x04#8) rfl rfl fun _ => rfl,
    displayOperation_spec .displayOff (· &&& 0xFB#8) rfl rfl fun _ => rfl,
    displayOperation_spec .cursorOn (· ||| 0x02#8) rfl rfl fun _ => rfl,
    displayOperation_spec .cursorOff (· &&& 0xFD#8) rfl rfl fun _ => rfl,
    displayOperation_spec .blinkOn (· ||| 0x01#8) rfl rfl fun _ => rfl,
    displayOperation_spec .blinkOff (· &&& 0xFE#8) rfl rfl fun _ => rfl⟩

/-- Settles O16: each operation is `changeEntry` with its bit set, or masked by the 8-bit complement
of its bit (0xFE, 0xFD). -/
theorem entryModeOperationsSetOrClearOneBit : Obligations.EntryModeOperationsSetOrClearOneBit := by
  unfold Obligations.EntryModeOperationsSetOrClearOneBit
  exact ⟨entryOperation_spec .autoscrollOn (· ||| 0x01#8) rfl rfl fun _ => rfl,
    entryOperation_spec .autoscrollOff (· &&& 0xFE#8) rfl rfl fun _ => rfl,
    entryOperation_spec .leftToRight (· ||| 0x02#8) rfl rfl fun _ => rfl,
    entryOperation_spec .rightToLeft (· &&& 0xFD#8) rfl rfl fun _ => rfl⟩

end Sys2Proof.Machine

namespace Sys2Proof.Machine

/-! ### CLEAR and HOME (42_clear_home.md R140, R141) -/

/-- SEND, then a wait of its own: the wait is one more event after SEND's, and nothing else changes. -/
theorem perform_send_delayUs (v : Byte) (m : Level) (n : Nat) (s : State) :
    perform (send v m ++ [.delayUs n]) s = afterEvents s (sendEvents s.pin v m ++ [.W n]) := by
  rw [perform_append, perform_send, perform_cons, applyAction_delayUs, afterEvents_append, perform_nil]

/-- An operation that sends the command `v` and then waits 2000 us: its code, its refusal, its effect. -/
theorem clearHomeOperation_spec (i : Instr) (v : Byte) (hoperands : i.operandBytes = 0)
    (hi : i.isInit = false) (hacts : ∀ s, operationActions i s = send v false ++ [.delayUs 2000]) :
    HasCode (Laws.tableCode i) i ∧ RefusedBeforeInit i ∧
      Completes i fun s => afterEvents s (sendEvents s.pin v false ++ [.W 2000]) :=
  ⟨hasCode_of_operandBytes_eq_zero hoperands, refusedBeforeInit_of_not_init hi,
    completes_of_perform hi fun s => by rw [hacts, perform_send_delayUs]⟩

/-- Settles O17: both operations are SEND of their command byte and then the wait; the events and their
duration are SEND's 21 and 204 us, and the wait's. -/
theorem clearAndHomeSendAndThenWait : Obligations.ClearAndHomeSendAndThenWait := by
  unfold Obligations.ClearAndHomeSendAndThenWait
  refine ⟨clearHomeOperation_spec .clear 0x01#8 rfl rfl fun _ => rfl,
    clearHomeOperation_spec .home 0x02#8 rfl rfl fun _ => rfl, fun a v => ⟨?_, ?_⟩⟩
  · rw [List.length_append, sendEvents_length, List.length_singleton]
  · rw [minDuration_append, minDuration_sendEvents, minDuration_cons_W, minDuration_nil]

end Sys2Proof.Machine

namespace Sys2Proof.Machine

/-! ### SHIFT_LEFT and SHIFT_RIGHT (43_shift.md R150, R151) -/

/-- A byte sent with RS = 0 is a command, with no wait but SEND's own (R182). -/
theorem perform_send_command (v : Byte) (s : State) : perform (send v false) s = afterCommand s v :=
  perform_send v false s

/-- An operation that sends the command `v`, the same in every state: its code, its refusal, its effect. -/
theorem commandOperation_spec (i : Instr) (v : Byte) (hoperands : i.operandBytes = 0)
    (hi : i.isInit = false) (hacts : ∀ s, operationActions i s = send v false) :
    HasCode (Laws.tableCode i) i ∧ RefusedBeforeInit i ∧ Completes i fun s => afterCommand s v :=
  ⟨hasCode_of_operandBytes_eq_zero hoperands, refusedBeforeInit_of_not_init hi,
    completes_of_perform hi fun s => by rw [hacts, perform_send_command]⟩

/-- Settles O18: both operations are SEND of a fixed command byte, `CMD_SHIFT` with the display bit and
the direction bit; the events and their duration are SEND's. -/
theorem shiftsSendOneCommandAndKeepEveryRegister :
    Obligations.ShiftsSendOneCommandAndKeepEveryRegister := by
  unfold Obligations.ShiftsSendOneCommandAndKeepEveryRegister
  exact ⟨commandOperation_spec .shiftLeft 0x18#8 rfl rfl fun _ => rfl,
    commandOperation_spec .shiftRight 0x1C#8 rfl rfl fun _ => rfl,
    fun a v => ⟨sendEvents_length a v false, minDuration_sendEvents a v false⟩⟩

end Sys2Proof.Machine

namespace Sys2Proof.Machine

/-! ### SET_CURSOR (44_set_cursor.md R160, R161) -/

theorem decode_of_opOf_setCursor {w : RequestWord} (h : opOf w = 0x10#8) :
    decode w = .ok (.setCursor (a0Of w) (a1Of w)) := by
  simp [decode, h]

theorem exec_setCursor (col row : Byte) (s : State) :
    exec (.setCursor col row) s = whenReady (setCursorActions col row) s := rfl

/-- The smaller of the two bounds: the last line, not the last entry of the table (R160, R161). -/
theorem rowLimit_eq_one : rowLimit = 1 := rfl

theorem clampRow_of_pos {row : Byte} (h : 1 ≤ row.toNat) : clampRow row = ⟨1, by decide⟩ :=
  Fin.ext (Nat.min_eq_right (rowLimit_eq_one ▸ h))

theorem cursorAddress_row_zero (col : Byte) : cursorAddress col 0x00#8 = col + 0x00#8 := rfl

theorem cursorAddress_of_row_pos (col : Byte) {row : Byte} (h : 1 ≤ row.toNat) :
    cursorAddress col row = col + 0x40#8 := by
  rw [cursorAddress, clampRow_of_pos h]
  rfl

/-- The table lookup at the clamped row has two outcomes, as the rule states them (R160). -/
theorem cursorAddress_eq_ddramAddress (col row : Byte) :
    cursorAddress col row = ddramAddress col row := by
  by_cases hrow : row = 0x00#8
  · rw [hrow, cursorAddress_row_zero, ddramAddress, if_pos rfl]
  · have hpos : 1 ≤ row.toNat := Nat.one_le_iff_ne_zero.mpr (BitVec.toNat_ne.mp hrow)
    rw [cursorAddress_of_row_pos col hpos, ddramAddress, if_neg hrow]

/-- SET_CURSOR sends its command byte, whatever the operands, and nothing else changes. -/
theorem setCursor_completes (col row : Byte) :
    Completes (.setCursor col row) fun s => afterCommand s (0x80#8 ||| cursorAddress col row) :=
  completes_of_perform rfl fun s => perform_send_command (cursorCommand col row) s

/-- Settles O19: the code by `decode`, the refusal by the phase check, the byte by looking the clamped
row up in the offset table. -/
theorem setCursorSendsTheClampedAddress : Obligations.SetCursorSendsTheClampedAddress := by
  unfold Obligations.SetCursorSendsTheClampedAddress
  refine ⟨fun w hop => decode_of_opOf_setCursor hop, fun col row => ⟨?_, ?_⟩⟩
  · exact refusedBeforeInit_of_not_init rfl
  · rw [← cursorAddress_eq_ddramAddress]
    exact setCursor_completes col row

/-- Settles O45: the operands enter SET_CURSOR through the address alone, and from row 1 on that is
`col + 0x40`. -/
theorem rowsAboveOneActAsRowOne : Obligations.RowsAboveOneActAsRowOne := by
  unfold Obligations.RowsAboveOneActAsRowOne
  intro col row hrow
  have haddress : cursorAddress col row = col + 0x40#8 := cursorAddress_of_row_pos col hrow
  have haddressOne : cursorAddress col 0x01#8 = col + 0x40#8 := cursorAddress_of_row_pos col (by decide)
  refine ⟨fun s => ?_, ?_⟩
  · have hactions : setCursorActions col row = setCursorActions col 0x01#8 := by
      rw [setCursorActions, setCursorActions, cursorCommand, cursorCommand, haddress, haddressOne]
    rw [exec_setCursor, exec_setCursor, hactions]
  · rw [← haddress]
    exact setCursor_completes col row

end Sys2Proof.Machine

namespace Sys2Proof.Machine

/-! ### Which level an operation writes to a role's pin (10_state.md R22, 46_send.md R182) -/

/-- The roles in the order `pinsDistinct` lists their pins. -/
def pinRoles : List PinRole := [.rs, .en, .d4, .d5, .d6, .d7]

theorem mem_pinRoles (role : PinRole) : role ∈ pinRoles := by
  cases role <;> decide

/-- With distinct identifiers a pin has one role (R22). -/
theorem pinOf_injective {a : PinAssignment} (h : pinsDistinct a = true) :
    Function.Injective (pinOf a) := by
  have hnodup : (pinRoles.map (pinOf a)).Nodup := of_decide_eq_true h
  exact fun role role' heq =>
    List.inj_on_of_nodup_map hnodup (mem_pinRoles role) (mem_pinRoles role') heq

/-- The writes of a level to a role's pin are the actions that write it to that role, as long as the pin
registers stay what they are and no other role shares the pin. -/
theorem writesOf_pinOf_eventsOf {a : PinAssignment} {as : List Action} (hdistinct : pinsDistinct a = true)
    (hpins : ∀ p, .setPins p ∈ as → p = a) (role : PinRole) (l : Level) :
    writesOf (pinOf a role) l (eventsOf a as) = as.count (.gpioWrite role l) := by
  induction as with
  | nil => rfl
  | cons x as ih =>
    have ih := ih fun p hp => hpins p (List.mem_cons_of_mem x hp)
    unfold writesOf at ih ⊢
    cases x with
    | gpioWrite role' l' =>
      simp [eventsOf, List.count_cons, ih, (pinOf_injective hdistinct).eq_iff]
    | setPins p => simp [eventsOf, hpins p List.mem_cons_self, ih]
    | delayUs n => simp [eventsOf, ih]
    | setShadow r v => simp [eventsOf, ih]
    | setPhase p => simp [eventsOf, ih]

theorem setPins_not_mem_of_events {as : List Action} (h : as.all isEvent = true) (p : PinAssignment) :
    .setPins p ∉ as :=
  fun hp => Bool.false_ne_true (List.all_eq_true.mp h _ hp)

@[simp] theorem setPins_not_mem_send (p : PinAssignment) (v : Byte) (m : Level) :
    .setPins p ∉ send v m :=
  setPins_not_mem_of_events rfl p

@[simp] theorem setPins_not_mem_transmitNibble (p : PinAssignment) (n : Nibble) :
    .setPins p ∉ transmitNibble n :=
  setPins_not_mem_of_events rfl p

theorem setPins_mem_initActions {p : PinAssignment} {rs en d4 d5 d6 d7 : PinId} :
    .setPins p ∈ initActions rs en d4 d5 d6 d7 ↔ p = ⟨rs, en, d4, d5, d6, d7⟩ := by
  simp [initActions, resyncActions, configureActions]

/-- What an operation other than INIT can be: a character, a command, a command and a wait, or a new
value of `ctrl` or `mode` and the command that carries it (R87). -/
theorem operationActions_cases {i : Instr} (s : State) (hi : i.isInit = false) :
    (∃ c, i = .writeChar c ∧ operationActions i s = send c true) ∨
    (∃ v, operationActions i s = send v false) ∨
    (∃ v, operationActions i s = send v false ++ [.delayUs 2000]) ∨
    (∃ v, operationActions i s = changeDisplay v) ∨
    (∃ v, operationActions i s = changeEntry v) := by
  cases i with
  | init => cases hi
  | writeChar c => exact .inl ⟨c, rfl, rfl⟩
  | shiftLeft | shiftRight | setCursor => exact .inr (.inl ⟨_, rfl⟩)
  | clear | home => exact .inr (.inr (.inl ⟨_, rfl⟩))
  | displayOn | displayOff | cursorOn | cursorOff | blinkOn | blinkOff =>
    exact .inr (.inr (.inr (.inl ⟨_, rfl⟩)))
  | autoscrollOn | autoscrollOff | leftToRight | rightToLeft =>
    exact .inr (.inr (.inr (.inr ⟨_, rfl⟩)))

/-- Only INIT writes the pin registers (R34). -/
theorem setPins_not_mem_operationActions {i : Instr} (s : State) (p : PinAssignment)
    (hi : i.isInit = false) : .setPins p ∉ operationActions i s := by
  rcases operationActions_cases s hi with ⟨c, -, h⟩ | ⟨v, h⟩ | ⟨v, h⟩ | ⟨v, h⟩ | ⟨v, h⟩ <;>
    simp [h, changeDisplay, changeEntry]

/-- An operation writes the pin registers at most with the values it leaves in them (R34, R110). -/
theorem eq_pinsAfter_of_setPins_mem {i : Instr} {s : State} {p : PinAssignment}
    (h : .setPins p ∈ operationActions i s) : p = pinsAfter s.pin (operationActions i s) := by
  cases i with
  | init => exact setPins_mem_initActions.mp h
  | _ => exact absurd h (setPins_not_mem_operationActions s p rfl)

theorem pinsAfter_of_no_setPins {as : List Action} (h : ∀ p, .setPins p ∉ as) (a : PinAssignment) :
    pinsAfter a as = a := by
  induction as with
  | nil => rfl
  | cons x as ih =>
    have ih := ih fun p hp => h p (List.mem_cons_of_mem x hp)
    cases x with
    | setPins p => exact absurd List.mem_cons_self (h p)
    | _ => exact ih

/-- Every event of an operation goes to the pins as they are after it: INIT writes them first. -/
theorem eventsOf_operationActions_pinsAfter (i : Instr) (s : State) :
    eventsOf (pinsAfter s.pin (operationActions i s)) (operationActions i s) =
      eventsOf s.pin (operationActions i s) := by
  cases i with
  | init => rfl
  | _ => rw [pinsAfter_of_no_setPins fun p => setPins_not_mem_operationActions s p rfl]

/-- What an operation can append to the trace: nothing when it is refused, else its own events. -/
theorem exec_events {i : Instr} {s t : State} {es : List Event} (h : exec i s = .next t)
    (htrace : t.trace = s.trace ++ es) :
    es = [] ∨
      t.pin = pinsAfter s.pin (operationActions i s) ∧ es = eventsOf t.pin (operationActions i s) := by
  rcases exec_cases h with ⟨r, -, rfl⟩ | ⟨-, rfl⟩
  · exact .inl (List.self_eq_append_right.mp htrace)
  · rw [perform_eq] at htrace ⊢
    have hes := List.append_cancel_left htrace
    exact .inr ⟨rfl, hes.symm.trans (eventsOf_operationActions_pinsAfter i s).symm⟩

/-- How often an operation writes a level to a role's pin: as often as its actions say, or never when it
is refused. -/
theorem writesOf_exec {i : Instr} {s t : State} {es : List Event} (h : exec i s = .next t)
    (htrace : t.trace = s.trace ++ es) (hdistinct : pinsDistinct t.pin = true) (role : PinRole)
    (l : Level) :
    es = [] ∨ writesOf (pinOf t.pin role) l es = (operationActions i s).count (.gpioWrite role l) := by
  refine (exec_events h htrace).imp_right fun ⟨hpin, hes⟩ => ?_
  rw [hes]
  exact writesOf_pinOf_eventsOf hdistinct (fun p hp => hpin ▸ eq_pinsAfter_of_setPins_mem hp) role l

/-! ### WRITE_CHAR (45_write.md R170) -/

theorem decode_of_opOf_writeChar {w : RequestWord} (h : opOf w = 0x11#8) :
    decode w = .ok (.writeChar (a0Of w)) := by
  simp [decode, h]

/-- WRITE_CHAR sends its byte as data, and nothing else changes. -/
theorem writeChar_completes (c : Byte) :
    Completes (.writeChar c) fun s => afterEvents s (sendEvents s.pin c true) :=
  completes_of_perform rfl fun s => perform_send c true s

@[simp] theorem count_rs_high_transmitNibble (n : Nibble) :
    (transmitNibble n).count (.gpioWrite .rs true) = 0 := rfl

@[simp] theorem count_rs_high_send_command (v : Byte) :
    (send v false).count (.gpioWrite .rs true) = 0 := rfl

/-- INIT's lone nibbles write no RS, and its four bytes are commands (R110, R113). -/
theorem count_rs_high_initActions (rs en d4 d5 d6 d7 : PinId) :
    (initActions rs en d4 d5 d6 d7).count (.gpioWrite .rs true) = 0 := by
  have hrs : config.modeInstr = false := rfl
  simp [initActions, resyncActions, configureActions, hrs]

theorem count_rs_high_of_not_init {i : Instr} (s : State) (hinit : i.isInit = false)
    (hi : ∀ c, i ≠ .writeChar c) : (operationActions i s).count (.gpioWrite .rs true) = 0 := by
  have hrs : config.modeInstr = false := rfl
  rcases operationActions_cases s hinit with ⟨c, hc, -⟩ | ⟨v, h⟩ | ⟨v, h⟩ | ⟨v, h⟩ | ⟨v, h⟩
  · exact absurd hc (hi c)
  all_goals simp [h, changeDisplay, changeEntry, hrs]

/-- Every operation but WRITE_CHAR sends commands only (R87, R170). -/
theorem count_rs_high_operationActions {i : Instr} (s : State) (hi : ∀ c, i ≠ .writeChar c) :
    (operationActions i s).count (.gpioWrite .rs true) = 0 := by
  cases i with
  | init => exact count_rs_high_initActions ..
  | _ => exact count_rs_high_of_not_init s rfl hi

/-- Settles O20: the code by `decode`, the refusal by the phase check, the effect SEND's with RS = 1; for
the others, a write of 1 to the pin of RS is an action on the role RS, and none of their actions is. -/
theorem writeCharSendsItsByteAsData : Obligations.WriteCharSendsItsByteAsData := by
  unfold Obligations.WriteCharSendsItsByteAsData
  refine ⟨fun w hop => decode_of_opOf_writeChar hop,
    fun c => ⟨refusedBeforeInit_of_not_init rfl, writeChar_completes c⟩,
    fun a c => ⟨sendEvents_length a c true, minDuration_sendEvents a c true⟩, ?_⟩
  intro i s t es hi hexec htrace hdistinct
  rcases writesOf_exec hexec htrace hdistinct .rs true with rfl | hcount
  · rfl
  · exact hcount.trans (count_rs_high_operationActions s hi)

end Sys2Proof.Machine

namespace Sys2Proof.Machine

/-! ### ENABLE_PULSE, TRANSMIT_NIBBLE and SEND (46_send.md R180 to R182) -/

/-- Actions that are all events change the latch and the trace, by their events, and nothing else. -/
theorem perform_of_events {as : List Action} (h : as.all isEvent = true) (s : State) :
    perform as s = afterEvents s (eventsOf s.pin as) := by
  induction as generalizing s with
  | nil => rw [perform_nil, eventsOf, afterEvents_nil]
  | cons x as ih =>
    obtain ⟨hx, has⟩ := Bool.and_eq_true_iff.mp h
    rw [perform_cons, ih has]
    cases x with
    | gpioWrite role l => exact afterEvents_append s [.P (pinOf s.pin role) l] (eventsOf s.pin as)
    | delayUs n => exact afterEvents_append s [.W n] (eventsOf s.pin as)
    | setPins | setShadow | setPhase => cases hx

theorem eventsOf_enablePulse (a : PinAssignment) : eventsOf a enablePulse = pulseEvents a := rfl

/-- 1 us of set-up, 1 us of pulse and 100 us of recovery (R180). -/
theorem minDuration_pulseEvents (a : PinAssignment) : minDuration (pulseEvents a) = 102 := by
  simp only [pulseEvents, minDuration_cons_P, minDuration_cons_W, minDuration_nil]

/-- ENABLE_PULSE emits the pulse whatever EN was, and changes nothing else (R180). -/
theorem perform_enablePulse (s : State) : perform enablePulse s = afterEvents s (pulseEvents s.pin) := by
  rw [perform_of_events rfl, eventsOf_enablePulse]

/-- A nibble's ten events are the four data lines, then the pulse (R181). -/
theorem nibEvents_eq_dataLines_append_pulse (a : PinAssignment) (n : Nibble) :
    nibEvents a n = [.P a.d4 (n.getLsbD 0), .P a.d5 (n.getLsbD 1), .P a.d6 (n.getLsbD 2),
      .P a.d7 (n.getLsbD 3)] ++ pulseEvents a := rfl

/-- TRANSMIT_NIBBLE emits the nibble's events and changes nothing else (R181). -/
theorem perform_transmitNibble (n : Nibble) (s : State) :
    perform (transmitNibble n) s = afterEvents s (nibEvents s.pin n) := by
  rw [perform_of_events rfl, eventsOf_transmitNibble]

/-- Settles O10: ENABLE_PULSE is six events, and its duration the sum of its three waits. -/
theorem enablePulseEmitsItsSixEvents : Obligations.EnablePulseEmitsItsSixEvents := by
  unfold Obligations.EnablePulseEmitsItsSixEvents
  exact ⟨perform_enablePulse, minDuration_pulseEvents⟩

/-- Settles O11: TRANSMIT_NIBBLE is ten events, which are the data lines' four and the pulse's six. -/
theorem transmitNibbleEmitsItsTenEvents : Obligations.TransmitNibbleEmitsItsTenEvents := by
  unfold Obligations.TransmitNibbleEmitsItsTenEvents
  intro s n
  rw [perform_transmitNibble, nibEvents_eq_dataLines_append_pulse]

/-- Settles O12: the effect is `perform_send`, for every state and so for every value of the shadow
registers; the count and the duration are those of the 21 events. -/
theorem sendEmitsItsTwentyOneEvents : Obligations.SendEmitsItsTwentyOneEvents := by
  unfold Obligations.SendEmitsItsTwentyOneEvents
  intro s v m
  exact ⟨perform_send v m s, sendEvents_length s.pin v m, minDuration_sendEvents s.pin v m⟩

end Sys2Proof.Machine

namespace Sys2Proof.Machine

/-! ### Decoding and encoding (30_encoding.md R82, R83, R85, R94) -/

theorem opOf_encode (i : Instr) : opOf (encode i) = Laws.tableCode i := by
  cases i <;> exact opOf_req56 ..

/-- Settles O4: the encoded word carries the code of the instruction's row, and its operand bytes are the
operands. -/
theorem decodeOfEncodeIsTheInstruction : Obligations.DecodeOfEncodeIsTheInstruction := by
  unfold Obligations.DecodeOfEncodeIsTheInstruction
  intro i
  cases i with
  | init => rw [decode_of_opOf_init (opOf_encode _)]; simp [encode]
  | setCursor => rw [decode_of_opOf_setCursor (opOf_encode _)]; simp [encode]
  | writeChar => rw [decode_of_opOf_writeChar (opOf_encode _)]; simp [encode]
  | _ => exact hasCode_of_operandBytes_eq_zero rfl _ (opOf_encode _)

theorem opOf_of_decode {w : RequestWord} {i : Instr} (h : decode w = .ok i) :
    opOf w = Laws.tableCode i := by
  unfold decode at h
  split at h <;> cases h <;> exact opOf_eq_of_toNat ‹_›

/-- Settles O5: a decoded word carries the code of its row, and where the row names operand bytes the
operands are the word's. -/
theorem encodeOfDecodeKeepsOpAndOperands : Obligations.EncodeOfDecodeKeepsOpAndOperands := by
  unfold Obligations.EncodeOfDecodeKeepsOpAndOperands
  intro w i h
  have hop : opOf w = Laws.tableCode i := opOf_of_decode h
  refine ⟨(opOf_encode i).trans hop.symm, ?_⟩
  cases i with
  | init => cases (decode_of_opOf_init hop).symm.trans h; simp [encode, Instr.operandBytes]
  | setCursor => cases (decode_of_opOf_setCursor hop).symm.trans h; simp [encode, Instr.operandBytes]
  | writeChar => cases (decode_of_opOf_writeChar hop).symm.trans h; simp [encode, Instr.operandBytes]
  | _ => simp [encode, Instr.operandBytes]

/-- The decoder rejects the reserved codes, naming the code, and no other (R85). -/
theorem decode_eq_error_iff {w : RequestWord} {e : DecodeRejection} :
    decode w = .error e ↔
      (opOf w = 0x00#8 ∨ 0x12 ≤ (opOf w).toNat) ∧ e = .reservedOp (opOf w) := by
  rw [BitVec.toNat_eq]
  unfold decode
  split
  case h_18 =>
    have hreserved : (opOf w).toNat = 0 ∨ 0x12 ≤ (opOf w).toNat := by
      simp only [imp_false] at *
      omega
    rw [BitVec.toNat_ofNat, Nat.zero_mod, and_iff_right hreserved, Except.error.injEq, eq_comm]
  all_goals simp [*]

theorem decode_of_reserved {w : RequestWord} (h : opOf w = 0x00#8 ∨ 0x12 ≤ (opOf w).toNat) :
    decode w = .error (.reservedOp (opOf w)) :=
  decode_eq_error_iff.mpr ⟨h, rfl⟩

/-- Settles O6: `decode_eq_error_iff`, read from both sides. -/
theorem reservedCodesAreExactlyTheRejectedOnes : Obligations.ReservedCodesAreExactlyTheRejectedOnes := by
  unfold Obligations.ReservedCodesAreExactlyTheRejectedOnes
  exact fun w => ⟨⟨fun h => ⟨_, decode_of_reserved h⟩, fun ⟨_, h⟩ => (decode_eq_error_iff.mp h).1⟩,
    fun _ h => (decode_eq_error_iff.mp h).2⟩

/-- Settles O7: by running the decoder on the eight words. -/
theorem specExampleWordsDecode : Obligations.SpecExampleWordsDecode := by
  unfold Obligations.SpecExampleWordsDecode
  exact ⟨rfl, rfl, rfl, rfl, rfl, rfl, rfl, rfl⟩

/-! ### What a step does with each input (30_encoding.md R81, 60_exceptions.md R210) -/

theorem step_of_nil {s : State} (hport : s.port = []) : step s = .next (advance s) := by
  simp only [step, hport]

theorem step_of_idle {s : State} {rest : List PortInput} (hport : s.port = .idle :: rest) :
    step s = .next (advance { s with port := rest }) := by
  simp only [step, hport]

theorem step_of_reset {s : State} {rest : List PortInput} (hport : s.port = .reset :: rest) :
    step s = .next (hardwareReset { s with port := rest }) := by
  simp only [step, hport]

theorem step_of_rival {s : State} {w : RequestWord} {rest : List PortInput}
    (hport : s.port = .rival w :: rest) : step s = accept .whole w { s with port := rest } := by
  simp only [step, hport]

theorem step_of_request_idle {s : State} {pace : Pace} {w : RequestWord} {rest : List PortInput}
    (hport : s.port = .request pace w :: rest) (hidle : reqReady s = true) :
    step s = accept pace w { s with port := rest } := by
  simp only [step, hport, hidle, if_true]

theorem step_of_request_busy {s : State} {pace : Pace} {w : RequestWord} {rest : List PortInput}
    (hport : s.port = .request pace w :: rest) (hbusy : reqReady s = false) :
    step s = .next (advance { s with port := rest }) := by
  simp [step, hport, hbusy]

theorem accept_whole_of_decode {w : RequestWord} {i : Instr} (h : decode w = .ok i) (s : State) :
    accept .whole w s = exec i s := by
  simp only [accept, h]

theorem accept_stepped_of_decode {w : RequestWord} {i : Instr} (h : decode w = .ok i) (s : State) :
    accept .stepped w s = .next (startStepped i s) := by
  simp only [accept, h]

theorem accept_of_decode_error {w : RequestWord} {e : DecodeRejection} (h : decode w = .error e)
    (pace : Pace) (s : State) : accept pace w s = .next (refuse (.reservedRequest w) s) := by
  simp only [accept, h]

/-- Settles O1: the step accepts the word, and acceptance runs what the word decodes to. -/
theorem acceptedWordRunsItsInstruction : Obligations.AcceptedWordRunsItsInstruction := by
  unfold Obligations.AcceptedWordRunsItsInstruction
  intro s w rest i hport hidle hdecode
  rw [step_of_request_idle hport hidle, accept_whole_of_decode hdecode]

/-- Settles O2: a busy step with a request and an idle step are the same small step. -/
theorem busyTransmitterIgnoresRequests : Obligations.BusyTransmitterIgnoresRequests := by
  unfold Obligations.BusyTransmitterIgnoresRequests
  intro s pace w rest hport hbusy
  rw [step_of_request_busy hport hbusy, step_of_idle (s := { s with port := .idle :: rest }) rfl]

/-- Settles O3: the decoder rejects the word, whatever the pace and the phase. -/
theorem reservedWordIsRefusedWithItsWord : Obligations.ReservedWordIsRefusedWithItsWord := by
  unfold Obligations.ReservedWordIsRefusedWithItsWord
  intro s pace w rest hport hidle hreserved
  rw [step_of_request_idle hport hidle, accept_of_decode_error (decode_of_reserved hreserved)]
  rfl

/-- Settles O8: the reset state's fields are the values of R35. -/
theorem resetStateIsUninitialized : Obligations.ResetStateIsUninitialized := by
  unfold Obligations.ResetStateIsUninitialized
  exact ⟨rfl, readLevel_nil, rfl, rfl, rfl⟩

theorem reqReadyOutput_of_reset {s : State} {rest : List PortInput} (hport : s.port = .reset :: rest) :
    reqReadyOutput s = false := by
  simp [reqReadyOutput, hport]

/-- Settles O9: the step is `hardwareReset`, which keeps the port and nothing else. -/
theorem hardwareResetAbandonsWhateverRuns : Obligations.HardwareResetAbandonsWhateverRuns := by
  unfold Obligations.HardwareResetAbandonsWhateverRuns
  intro s rest hport
  exact ⟨reqReadyOutput_of_reset hport, _, step_of_reset hport, rfl, readLevel_nil, rfl, rfl, rfl, rfl⟩

/-! ### Refusals (60_exceptions.md R202 to R205) -/

theorem exec_of_busy (i : Instr) {s : State} (hbusy : reqReady s = false) :
    exec i s = .next (refuse .interleaved s) := by
  simp [exec_eq, refusalOf, hbusy]

/-- Settles O21: the phase check and the check for an operation in progress, each with its reason. -/
theorem refusalRecordsItsReason : Obligations.RefusalRecordsItsReason := by
  unfold Obligations.RefusalRecordsItsReason
  refine ⟨fun i s => exec_of_uninitialized, fun i s hinit hidle hphase => ?_, fun i s => exec_of_busy i,
    rfl, rfl, fun _ => rfl, rfl⟩
  cases i with
  | init rs en d4 d5 d6 d7 => exact exec_init_of_ready rs en d4 d5 d6 d7 hidle hphase
  | _ => cases hinit

/-- Settles O50: a second requester's word is accepted at once, and `exec` refuses it while an operation
is in progress. -/
theorem secondRequesterIsRefusedWhileBusy : Obligations.SecondRequesterIsRefusedWhileBusy := by
  unfold Obligations.SecondRequesterIsRefusedWhileBusy
  intro s w rest hport
  rw [step_of_rival hport]
  refine ⟨fun hreserved => accept_of_decode_error (decode_of_reserved hreserved) _ _,
    fun i hdecode hbusy => ?_, fun i hdecode _ => accept_whole_of_decode hdecode _⟩
  rw [accept_whole_of_decode hdecode]
  exact exec_of_busy i hbusy

theorem accept_next (pace : Pace) (w : RequestWord) (s : State) : ∃ t, accept pace w s = .next t := by
  cases hdecode : decode w with
  | error e => exact ⟨_, accept_of_decode_error hdecode pace s⟩
  | ok i =>
    cases pace with
    | whole => exact ⟨_, (accept_whole_of_decode hdecode s).trans (exec_eq i s)⟩
    | stepped => exact ⟨_, accept_stepped_of_decode hdecode s⟩

/-- Settles O23: every input of the port leads to a next state, and `Fault` has no constructor. -/
theorem everyStepAnswersANextState : Obligations.EveryStepAnswersANextState := by
  unfold Obligations.EveryStepAnswersANextState
  refine ⟨fun s => ?_, fun fault => nomatch fault⟩
  match hport : s.port with
  | [] => exact ⟨_, step_of_nil hport⟩
  | .idle :: _ => exact ⟨_, step_of_idle hport⟩
  | .reset :: _ => exact ⟨_, step_of_reset hport⟩
  | .rival w :: rest =>
    rw [step_of_rival hport]
    exact accept_next _ w { s with port := rest }
  | .request pace w :: rest =>
    cases hready : reqReady s with
    | true =>
      rw [step_of_request_idle hport hready]
      exact accept_next pace w { s with port := rest }
    | false => exact ⟨_, step_of_request_busy hport hready⟩

end Sys2Proof.Machine

namespace Sys2Proof.Machine

/-! ### What an operation leaves, in the words of R87 (30_encoding.md) and R111 (40_init.md) -/

/-- The events of an operation of phase Ready: its byte, then its wait (R87, R142). -/
def operationEvents (i : Instr) (s : State) : List Event :=
  (bytesSent i (s.ctrl, s.mode)).flatMap (fun b => sendEvents s.pin b.byte b.rs) ++ waitsAfter i

/-- The state an operation of phase Ready leaves. -/
def afterOperation (i : Instr) (s : State) : State :=
  { s with
    ctrl := (shadowsAfter i (s.ctrl, s.mode)).1, mode := (shadowsAfter i (s.ctrl, s.mode)).2,
    trace := s.trace ++ operationEvents i s, level := replay s.level (operationEvents i s) }

/-- The state INIT with these pins leaves. -/
def afterInit (a : PinAssignment) (s : State) : State :=
  { s with
    pin := a, fn := 0x08#8, ctrl := 0x04#8, mode := 0x02#8, phase := .ready,
    trace := s.trace ++ initEvents a, level := replay s.level (initEvents a) }

@[simp] theorem afterOperation_phase (i : Instr) (s : State) : (afterOperation i s).phase = s.phase := rfl
@[simp] theorem afterOperation_pin (i : Instr) (s : State) : (afterOperation i s).pin = s.pin := rfl
@[simp] theorem afterOperation_fn (i : Instr) (s : State) : (afterOperation i s).fn = s.fn := rfl
@[simp] theorem afterOperation_shadows (i : Instr) (s : State) :
    ((afterOperation i s).ctrl, (afterOperation i s).mode) = shadowsAfter i (s.ctrl, s.mode) := rfl
theorem afterOperation_ctrl (i : Instr) (s : State) :
    (afterOperation i s).ctrl = (shadowsAfter i (s.ctrl, s.mode)).1 := rfl
theorem afterOperation_mode (i : Instr) (s : State) :
    (afterOperation i s).mode = (shadowsAfter i (s.ctrl, s.mode)).2 := rfl
@[simp] theorem afterOperation_level (i : Instr) (s : State) :
    (afterOperation i s).level = replay s.level (operationEvents i s) := by
  simp only [afterOperation]
@[simp] theorem afterOperation_trace (i : Instr) (s : State) :
    (afterOperation i s).trace = s.trace ++ operationEvents i s := rfl
@[simp] theorem afterOperation_refused (i : Instr) (s : State) :
    (afterOperation i s).refused = s.refused := rfl
@[simp] theorem afterOperation_pending (i : Instr) (s : State) :
    (afterOperation i s).pending = s.pending := rfl
@[simp] theorem afterOperation_port (i : Instr) (s : State) : (afterOperation i s).port = s.port := rfl
@[simp] theorem reqReady_afterOperation (i : Instr) (s : State) :
    reqReady (afterOperation i s) = reqReady s := rfl

@[simp] theorem afterInit_phase (a : PinAssignment) (s : State) : (afterInit a s).phase = .ready := rfl
@[simp] theorem afterInit_pin (a : PinAssignment) (s : State) : (afterInit a s).pin = a := rfl
@[simp] theorem afterInit_level (a : PinAssignment) (s : State) :
    (afterInit a s).level = replay s.level (initEvents a) := by
  simp only [afterInit]
@[simp] theorem afterInit_trace (a : PinAssignment) (s : State) :
    (afterInit a s).trace = s.trace ++ initEvents a := rfl
@[simp] theorem afterInit_refused (a : PinAssignment) (s : State) :
    (afterInit a s).refused = s.refused := rfl
@[simp] theorem reqReady_afterInit (a : PinAssignment) (s : State) :
    reqReady (afterInit a s) = reqReady s := rfl

/-- Every operation of phase Ready sends one byte (R87). -/
theorem bytesSent_eq_singleton {i : Instr} (hi : i.isInit = false) (x : Byte × Byte) :
    ∃ b, bytesSent i x = [b] := by
  cases i with
  | init => cases hi
  | _ => exact ⟨_, rfl⟩

theorem operationEvents_of_byte {i : Instr} {s : State} {b : BusByte}
    (h : bytesSent i (s.ctrl, s.mode) = [b]) :
    operationEvents i s = sendEvents s.pin b.byte b.rs ++ waitsAfter i := by
  rw [operationEvents, h, List.flatMap_singleton]

/-- An operation that replaces `ctrl` and sends it as a command. -/
theorem perform_display_operation {i : Instr} {s : State} (v : Byte)
    (hacts : operationActions i s = changeDisplay v)
    (hbytes : bytesSent i (s.ctrl, s.mode) = [⟨false, 0x08#8 ||| v⟩])
    (hshadows : shadowsAfter i (s.ctrl, s.mode) = (v, s.mode)) (hwaits : waitsAfter i = []) :
    perform (operationActions i s) s = afterOperation i s := by
  simp only [hacts, perform_changeDisplay, afterDisplay, afterEvents, afterOperation,
    operationEvents_of_byte hbytes, hshadows, hwaits, List.append_nil]

/-- An operation that replaces `mode` and sends it as a command. -/
theorem perform_entry_operation {i : Instr} {s : State} (v : Byte)
    (hacts : operationActions i s = changeEntry v)
    (hbytes : bytesSent i (s.ctrl, s.mode) = [⟨false, 0x04#8 ||| v⟩])
    (hshadows : shadowsAfter i (s.ctrl, s.mode) = (s.ctrl, v)) (hwaits : waitsAfter i = []) :
    perform (operationActions i s) s = afterOperation i s := by
  simp only [hacts, perform_changeEntry, afterEntry, afterEvents, afterOperation,
    operationEvents_of_byte hbytes, hshadows, hwaits, List.append_nil]

/-- An operation that sends a byte, perhaps waits, and updates no shadow register. -/
theorem perform_byte_operation {i : Instr} {s : State} (b : BusByte)
    (heffect : perform (operationActions i s) s =
      afterEvents s (sendEvents s.pin b.byte b.rs ++ waitsAfter i))
    (hbytes : bytesSent i (s.ctrl, s.mode) = [b])
    (hshadows : shadowsAfter i (s.ctrl, s.mode) = (s.ctrl, s.mode)) :
    perform (operationActions i s) s = afterOperation i s := by
  simp only [heffect, afterEvents, afterOperation, operationEvents_of_byte hbytes, hshadows]

/-- The operation's list of actions does what R87 says: each operation sends its byte as a command or as a
character, and the shadow it updates is written before. -/
theorem perform_operationActions {i : Instr} (hi : i.isInit = false) (s : State) :
    perform (operationActions i s) s = afterOperation i s := by
  cases i with
  | init => cases hi
  | clear => exact perform_byte_operation ⟨false, 0x01#8⟩ (perform_send_delayUs _ _ _ s) rfl rfl
  | home => exact perform_byte_operation ⟨false, 0x02#8⟩ (perform_send_delayUs _ _ _ s) rfl rfl
  | displayOn | displayOff | cursorOn | cursorOff | blinkOn | blinkOff =>
    exact perform_display_operation _ rfl rfl rfl rfl
  | autoscrollOn | autoscrollOff | leftToRight | rightToLeft =>
    exact perform_entry_operation _ rfl rfl rfl rfl
  | shiftLeft => exact perform_byte_operation ⟨false, 0x18#8⟩ (perform_send _ _ s) rfl rfl
  | shiftRight => exact perform_byte_operation ⟨false, 0x1C#8⟩ (perform_send _ _ s) rfl rfl
  | setCursor col row =>
    have hbytes : bytesSent (.setCursor col row) (s.ctrl, s.mode) = [⟨false, cursorCommand col row⟩] := by
      rw [bytesSent, ← cursorAddress_eq_ddramAddress]
      rfl
    exact perform_byte_operation ⟨false, cursorCommand col row⟩ (perform_send _ _ s) hbytes rfl
  | writeChar c => exact perform_byte_operation ⟨true, c⟩ (perform_send _ _ s) rfl rfl

/-- What an accepted operation leaves: INIT in phase Uninitialized, any other one in phase Ready. -/
theorem perform_cases_of_accepted {i : Instr} {s : State} (h : refusalOf i s = none) :
    s.pending = [] ∧
      ((i.isInit = true ∧ s.phase = .uninitialized ∧
          ∃ a, perform (operationActions i s) s = afterInit a s) ∨
        (i.isInit = false ∧ s.phase = .ready ∧
          perform (operationActions i s) s = afterOperation i s)) := by
  obtain ⟨hidle, ⟨⟨rs, en, d4, d5, d6, d7, rfl⟩, hphase⟩ | ⟨hi, hphase⟩⟩ := refusalOf_eq_none h
  · exact ⟨hidle, .inl ⟨rfl, hphase, _, perform_initActions rs en d4 d5 d6 d7 s⟩⟩
  · have hinit : i.isInit = false := by
      cases i with
      | init rs en d4 d5 d6 d7 => exact absurd rfl (hi rs en d4 d5 d6 d7)
      | _ => rfl
    exact ⟨hidle, .inr ⟨hinit, hphase, perform_operationActions hinit s⟩⟩

/-- What `exec` can leave. -/
theorem exec_effect_cases {i : Instr} {s t : State} (h : exec i s = .next t) :
    (∃ r, t = refuse r s) ∨
    (i.isInit = true ∧ s.phase = .uninitialized ∧ ∃ a, t = afterInit a s) ∨
    (i.isInit = false ∧ s.phase = .ready ∧ t = afterOperation i s) := by
  obtain ⟨r, -, rfl⟩ | ⟨haccepted, rfl⟩ := exec_cases h
  · exact .inl ⟨r, rfl⟩
  · exact .inr (perform_cases_of_accepted haccepted).2

theorem exec_operation {i : Instr} {s : State} (hi : i.isInit = false) (hidle : reqReady s = true)
    (hphase : s.phase = .ready) : exec i s = .next (afterOperation i s) := by
  rw [exec_of_ready hi hidle hphase, perform_operationActions hi]

theorem eq_afterOperation {i : Instr} {s t : State} (hi : i.isInit = false) (hidle : reqReady s = true)
    (hphase : s.phase = .ready) (h : exec i s = .next t) : t = afterOperation i s := by
  rw [exec_operation hi hidle hphase] at h
  exact (Host.Outcome.next.inj h).symm

theorem exec_init (rs en d4 d5 d6 d7 : PinId) {s : State} (hidle : reqReady s = true)
    (hphase : s.phase = .uninitialized) :
    exec (.init rs en d4 d5 d6 d7) s = .next (afterInit ⟨rs, en, d4, d5, d6, d7⟩ s) := by
  rw [exec_init_of_uninitialized rs en d4 d5 d6 d7 hidle hphase, perform_initActions, afterInit]

/-- Settles O14: what INIT leaves mentions none of the registers it is to forget. -/
theorem initForgetsTheUnspecifiedRegisters : Obligations.InitForgetsTheUnspecifiedRegisters := by
  unfold Obligations.InitForgetsTheUnspecifiedRegisters
  intro s a f c m rs en d4 d5 d6 d7 hidle hphase
  rw [exec_init rs en d4 d5 d6 d7 hidle hphase]
  exact exec_init rs en d4 d5 d6 d7 (s := { s with pin := a, fn := f, ctrl := c, mode := m }) hidle hphase

/-- Settles O24: a refusal and an operation of phase Ready keep the phase. -/
theorem onlyInitChangesThePhase : Obligations.OnlyInitChangesThePhase := by
  unfold Obligations.OnlyInitChangesThePhase
  intro i s t h hchanged
  obtain ⟨r, rfl⟩ | ⟨hi, hphase, a, rfl⟩ | ⟨-, -, rfl⟩ := exec_effect_cases h
  · exact absurd rfl hchanged
  · exact ⟨hi, hphase, rfl⟩
  · exact absurd rfl hchanged

/-- The operations without a display-control bit keep `ctrl`, those without an entry-mode bit keep `mode`
(R34, R87). -/
theorem exists_modeBit_of_shadowsAfter_ne {i : Instr} (hi : i.isInit = false) (c m : Byte) :
    ((shadowsAfter i (c, m)).1 ≠ c → ∃ flag, modeBit i = some (.ctrl, flag)) ∧
    ((shadowsAfter i (c, m)).2 ≠ m → ∃ flag, modeBit i = some (.mode, flag)) := by
  cases i with
  | init => cases hi
  | displayOn | displayOff | cursorOn | cursorOff | blinkOn | blinkOff =>
    exact ⟨fun _ => ⟨_, rfl⟩, fun h => absurd rfl h⟩
  | autoscrollOn | autoscrollOff | leftToRight | rightToLeft =>
    exact ⟨fun h => absurd rfl h, fun _ => ⟨_, rfl⟩⟩
  | _ => exact ⟨fun h => absurd rfl h, fun h => absurd rfl h⟩

/-- Settles O25: a refusal changes no register, and an operation of phase Ready at most the one its bit is
in. -/
theorem registersChangeOnlyByTheirOperations : Obligations.RegistersChangeOnlyByTheirOperations := by
  unfold Obligations.RegistersChangeOnlyByTheirOperations
  intro i s t h hi
  obtain ⟨r, rfl⟩ | ⟨hinit, -⟩ | ⟨-, -, rfl⟩ := exec_effect_cases h
  · exact ⟨rfl, rfl, fun h => absurd rfl h, fun h => absurd rfl h, rfl, rfl⟩
  · exact absurd (hinit.symm.trans hi) Bool.true_eq_false.mp
  · obtain ⟨hctrl, hmode⟩ := exists_modeBit_of_shadowsAfter_ne hi s.ctrl s.mode
    exact ⟨rfl, rfl, hctrl, hmode, rfl, rfl⟩

/-- Settles O37: the effect of the operation, with its one byte named. -/
theorem everyOperationIsOneByteAndItsWait : Obligations.EveryOperationIsOneByteAndItsWait := by
  unfold Obligations.EveryOperationIsOneByteAndItsWait
  intro i s hi hidle hphase
  obtain ⟨b, hb⟩ := bytesSent_eq_singleton hi (s.ctrl, s.mode)
  refine ⟨b, _, hb, exec_operation hi hidle hphase, ?_, rfl⟩
  rw [afterOperation_trace, operationEvents_of_byte hb, List.append_assoc]

/-! ### The ranges of the shadow registers and the last level of EN (10_state.md R37, R234) -/

theorem or_toNat_lt_two_pow {x flag : Byte} {n : Nat} (hx : x.toNat < 2 ^ n) (hflag : flag.toNat < 2 ^ n) :
    (x ||| flag).toNat < 2 ^ n := by
  rw [BitVec.toNat_or]
  exact Nat.or_lt_two_pow hx hflag

theorem and_toNat_le {x : Byte} {n : Nat} (hx : x.toNat ≤ n) (mask : Byte) : (x &&& mask).toNat ≤ n := by
  rw [BitVec.toNat_and]
  exact Nat.and_le_left.trans hx

/-- Every operation keeps the ranges of R37. -/
theorem shadowsAfter_le (i : Instr) {c m : Byte} (hc : c.toNat ≤ 7) (hm : m.toNat ≤ 3) :
    (shadowsAfter i (c, m)).1.toNat ≤ 7 ∧ (shadowsAfter i (c, m)).2.toNat ≤ 3 := by
  cases i with
  | init => exact ⟨(by decide : (0x04#8).toNat ≤ 7), (by decide : (0x02#8).toNat ≤ 3)⟩
  | displayOn | cursorOn | blinkOn =>
    exact ⟨Nat.le_of_lt_succ (or_toNat_lt_two_pow (n := 3) (Nat.lt_succ_of_le hc) (by decide)), hm⟩
  | displayOff | cursorOff | blinkOff => exact ⟨and_toNat_le hc _, hm⟩
  | autoscrollOn | leftToRight =>
    exact ⟨hc, Nat.le_of_lt_succ (or_toNat_lt_two_pow (n := 2) (Nat.lt_succ_of_le hm) (by decide))⟩
  | autoscrollOff | rightToLeft => exact ⟨hc, and_toNat_le hm _⟩
  | _ => exact ⟨hc, hm⟩

@[simp] theorem replay_waitsAfter (lv : Levels) (i : Instr) : replay lv (waitsAfter i) = lv := by
  cases i <;> rfl

/-- A byte leaves EN at 0, whatever shares its pin: the last write of a pulse is `P(EN,0)`. -/
theorem readLevel_en_replay_sendEvents (lv : Levels) (a : PinAssignment) (v : Byte) (m : Level) :
    readLevel (replay lv (sendEvents a v m)) a.en = some false := by
  simp [sendEvents]

theorem readLevel_en_afterOperation {i : Instr} (hi : i.isInit = false) (s : State) :
    readLevel (afterOperation i s).level s.pin.en = some false := by
  obtain ⟨b, hb⟩ := bytesSent_eq_singleton hi (s.ctrl, s.mode)
  rw [afterOperation_level, operationEvents_of_byte hb, replay_append, replay_waitsAfter,
    readLevel_en_replay_sendEvents]

/-- INIT's events are the resynchronization and its four full bytes, with a wait after the clear command
(R110, R111). -/
theorem initEvents_eq_bytes (a : PinAssignment) :
    initEvents a = resyncEvents a ++ (sendEvents a 0x28#8 false ++ sendEvents a 0x0C#8 false ++
      sendEvents a 0x01#8 false ++ [.W 2000] ++ sendEvents a 0x06#8 false) := rfl

theorem readLevel_en_afterInit (a : PinAssignment) (s : State) :
    readLevel (afterInit a s).level a.en = some false := by
  rw [afterInit_level, initEvents_eq_bytes, ← List.append_assoc, replay_append,
    readLevel_en_replay_sendEvents]

theorem readyOk_afterInit (a : PinAssignment) (s : State) : readyOk (afterInit a s) := fun _ =>
  ⟨rfl, (by decide : (0x04#8).toNat ≤ 7), (by decide : (0x02#8).toNat ≤ 3), readLevel_en_afterInit a s⟩

theorem readyOk_afterOperation {i : Instr} (hi : i.isInit = false) {s : State} (h : readyOk s) :
    readyOk (afterOperation i s) := by
  intro hphase
  obtain ⟨hfn, hctrl, hmode, -⟩ := h hphase
  obtain ⟨hctrl', hmode'⟩ := shadowsAfter_le i hctrl hmode
  exact ⟨hfn, hctrl', hmode', readLevel_en_afterOperation hi s⟩

end Sys2Proof.Machine

namespace Sys2Proof.Machine

/-! ### One small step of an operation in progress (10_state.md R30, log entry 6) -/

/-- A small step splits the actions to come: those it takes hold one event, unless none is left, and those
it leaves are none or hold one. -/
theorem emitNext_eq (as : List Action) (s : State) :
    ∃ done left, as = done ++ left ∧ emitNext as s = { perform done s with pending := left } ∧
      done.countP isEvent = min 1 (as.countP isEvent) ∧ (left = [] ∨ left.any isEvent = true) := by
  induction as generalizing s with
  | nil => exact ⟨[], [], rfl, rfl, rfl, .inl rfl⟩
  | cons a as ih =>
    unfold emitNext settleAfterEvent
    by_cases ha : isEvent a = true
    · by_cases hrest : as.any isEvent = true
      · exact ⟨[a], as, rfl, by simp [ha, hrest, perform_cons], by simp [ha], .inr hrest⟩
      · have hcount : as.countP isEvent = 0 := List.countP_eq_zero.mpr (by simpa using hrest)
        exact ⟨a :: as, [], by simp, by simp [ha, hrest, perform_cons], by simp [ha, hcount], .inl rfl⟩
    · obtain ⟨done, left, has, hemit, hcount, hleft⟩ := ih (applyAction a s)
      refine ⟨a :: done, left, by simp [has], ?_, ?_, hleft⟩
      · simp [ha, hemit, perform_cons]
      · simp [ha, hcount]

theorem emitNext_keeps (as : List Action) (s : State) :
    (emitNext as s).refused = s.refused ∧ (emitNext as s).refusals = s.refusals ∧
      (emitNext as s).port = s.port := by
  obtain ⟨done, left, -, hemit, -⟩ := emitNext_eq as s
  obtain ⟨hrefused, hrefusals, -, hport⟩ := perform_keeps done s
  exact hemit ▸ ⟨hrefused, hrefusals, hport⟩

theorem trace_prefix_perform (as : List Action) (s : State) : s.trace <+: (perform as s).trace := by
  obtain ⟨es, hes, -⟩ := perform_trace as s
  exact ⟨es, hes.symm⟩

theorem trace_prefix_emitNext (as : List Action) (s : State) : s.trace <+: (emitNext as s).trace := by
  obtain ⟨done, left, -, hemit, -⟩ := emitNext_eq as s
  rw [hemit]
  exact trace_prefix_perform done s

/-- Settles O34: the actions a small step takes hold one event, and the trace grows by it. -/
theorem smallStepEmitsOneEvent : Obligations.SmallStepEmitsOneEvent := by
  unfold Obligations.SmallStepEmitsOneEvent
  intro s hevent
  obtain ⟨done, left, hpending, hemit, hcount, -⟩ := emitNext_eq s.pending s
  have hpos : 0 < s.pending.countP isEvent := List.countP_pos_iff.mpr (List.any_eq_true.mp hevent)
  have hone : done.countP isEvent = 1 := by omega
  have hrest : s.pending.countP isEvent = 1 + left.countP isEvent := by
    rw [hpending, List.countP_append, hone]
  obtain ⟨es, htrace, hlength⟩ := perform_trace done s
  obtain ⟨e, rfl⟩ := List.length_eq_one_iff.mp (hlength.trans hone)
  refine ⟨e, ?_, ?_⟩
  · rw [advance, hemit]
    exact htrace
  · rw [advance, hemit, hrest, Nat.add_comm]

/-- What a step that is not a reset can do: nothing to the mark and the record but add to them, nothing to
the trace but add to it. -/
theorem step_grows {s t : State} (h : step s = .next t) (hreset : s.port.head? ≠ some .reset) :
    (s.refused = true → t.refused = true) ∧ s.refusals <+: t.refusals ∧ s.trace <+: t.trace := by
  obtain ⟨rest, rfl⟩ | ⟨rest, hport, -⟩ | ⟨pace, w, rest, haccept⟩ := step_cases h
  · obtain ⟨hrefused, hrefusals, -⟩ := emitNext_keeps s.pending { s with port := rest }
    refine ⟨fun h => hrefused.trans h, ?_, trace_prefix_emitNext s.pending { s with port := rest }⟩
    rw [advance, hrefusals]
  · exact absurd (by rw [hport]; rfl) hreset
  · obtain ⟨r, rfl⟩ | ⟨i, -, -, ⟨-, rfl⟩ | ⟨-, rfl⟩⟩ := accept_cases haccept
    · exact ⟨fun _ => rfl, ⟨[r], rfl⟩, List.prefix_rfl⟩
    · obtain ⟨hrefused, hrefusals, -⟩ :=
        perform_keeps (operationActions i { s with port := rest }) { s with port := rest }
      refine ⟨fun h => hrefused.trans h, ?_, trace_prefix_perform _ { s with port := rest }⟩
      rw [hrefusals]
    · exact ⟨id, List.prefix_rfl, List.prefix_rfl⟩

/-- Settles O22: the mark and the record of `step_grows`. -/
theorem refusedMarkIsStickyUntilReset : Obligations.RefusedMarkIsStickyUntilReset := by
  unfold Obligations.RefusedMarkIsStickyUntilReset
  intro s t h hreset
  obtain ⟨hrefused, hrefusals, -⟩ := step_grows h hreset
  exact ⟨hrefused, hrefusals⟩

/-- Settles O26: the trace of `step_grows`. -/
theorem traceOnlyGrowsUntilReset : Obligations.TraceOnlyGrowsUntilReset := by
  unfold Obligations.TraceOnlyGrowsUntilReset
  intro s t h hreset
  obtain ⟨-, -, htrace⟩ := step_grows h hreset
  exact htrace

/-! ### The invariant (10_state.md R28, R37, 70_reset_and_hazards.md R234) -/

theorem settled_of_pending_nil {s : State} (h : s.pending = []) : settled s = s := by
  rw [settled, h, perform_nil, ← h]

/-- A state's values of R37 do not depend on the operation in progress, the port, the mark or the trace. -/
theorem readyOk_congr {s t : State} (hphase : t.phase = s.phase) (hpin : t.pin = s.pin) (hfn : t.fn = s.fn)
    (hctrl : t.ctrl = s.ctrl) (hmode : t.mode = s.mode) (hlevel : t.level = s.level) (h : readyOk s) :
    readyOk t := by
  unfold readyOk
  rw [hphase, hpin, hfn, hctrl, hmode, hlevel]
  exact h

/-- The actions of an operation read and write neither the mark nor the record. -/
theorem perform_refuse (as : List Action) (r : RefuseReason) (s : State) :
    perform as (refuse r s) = refuse r (perform as s) := by
  rw [perform_eq, perform_eq]
  rfl

theorem perform_faithful (as : List Action) {s : State} (h : s.level = replay [] s.trace) :
    (perform as s).level = replay [] (perform as s).trace := by
  rw [perform_eq, replay_append, ← h]

/-- The latch of every trace is canonical, so the invariant asks for it only once. -/
theorem inv_of_faithful {s : State} (hfaithful : s.level = replay [] s.trace)
    (hmarked : s.refused = !s.refusals.isEmpty) (hready : readyOk (settled s)) : Inv s where
  canonical := hfaithful ▸ levelsWf_replay [] s.trace rfl
  faithful := hfaithful
  marked := hmarked
  ready := hready

/-- Settles O30: nothing is written, recorded or ready. -/
theorem invariantHoldsAfterReset : Obligations.InvariantHoldsAfterReset := by
  unfold Obligations.InvariantHoldsAfterReset
  exact inv_of_faithful rfl rfl fun hphase => nomatch hphase

theorem inv_port {s : State} (h : Inv s) (port : List PortInput) : Inv { s with port := port } := by
  refine inv_of_faithful h.faithful h.marked ?_
  unfold settled
  rw [perform_port]
  exact readyOk_congr rfl rfl rfl rfl rfl rfl h.ready

theorem inv_hardwareReset (s : State) : Inv (hardwareReset s) :=
  inv_port invariantHoldsAfterReset s.port

theorem inv_refuse {s : State} (h : Inv s) (r : RefuseReason) : Inv (refuse r s) := by
  refine inv_of_faithful h.faithful (by simp) ?_
  have hsettled : settled (refuse r s) = refuse r (settled s) := by
    rw [settled, refuse_pending, perform_refuse]
    rfl
  rw [hsettled]
  exact readyOk_congr rfl rfl rfl rfl rfl rfl h.ready

/-- The end of the operation in progress is the same before and after a small step. -/
theorem inv_advance {s : State} (h : Inv s) : Inv (advance s) := by
  obtain ⟨hrefused, hrefusals, -⟩ := emitNext_keeps s.pending s
  refine inv_of_faithful ?_ ?_ ?_
  · obtain ⟨done, left, -, hemit, -⟩ := emitNext_eq s.pending s
    rw [advance, hemit]
    exact perform_faithful done h.faithful
  · rw [advance, hrefused, hrefusals, h.marked]
  · have hsettled : settled (advance s) = settled s := emitNext_end s.pending s
    rw [hsettled]
    exact h.ready

/-- What an accepted operation leaves has the values of R37 and EN at 0. -/
theorem readyOk_perform_of_accepted {i : Instr} {s : State} (h : Inv s) (haccepted : refusalOf i s = none) :
    readyOk (perform (operationActions i s) s) := by
  obtain ⟨hidle, ⟨-, -, a, hperform⟩ | ⟨hi, -, hperform⟩⟩ := perform_cases_of_accepted haccepted
  · rw [hperform]
    exact readyOk_afterInit a s
  · rw [hperform]
    exact readyOk_afterOperation hi (settled_of_pending_nil hidle ▸ h.ready)

theorem inv_perform_of_accepted {i : Instr} {s : State} (h : Inv s) (haccepted : refusalOf i s = none) :
    Inv (perform (operationActions i s) s) := by
  obtain ⟨hrefused, hrefusals, hpending, -⟩ := perform_keeps (operationActions i s) s
  obtain ⟨hidle, -⟩ := perform_cases_of_accepted haccepted
  refine inv_of_faithful (perform_faithful _ h.faithful) (by rw [hrefused, hrefusals, h.marked]) ?_
  rw [settled_of_pending_nil (hpending.trans hidle)]
  exact readyOk_perform_of_accepted h haccepted

theorem inv_pending_of_accepted {i : Instr} {s : State} (h : Inv s) (haccepted : refusalOf i s = none) :
    Inv { s with pending := operationActions i s } := by
  refine inv_of_faithful h.faithful h.marked ?_
  unfold settled
  rw [perform_pending]
  exact readyOk_congr rfl rfl rfl rfl rfl rfl (readyOk_perform_of_accepted h haccepted)

/-- Settles O31: each of the things a step can do keeps the invariant. -/
theorem everyStepKeepsTheInvariant : Obligations.EveryStepKeepsTheInvariant := by
  unfold Obligations.EveryStepKeepsTheInvariant
  intro s t h hstep
  obtain ⟨rest, rfl⟩ | ⟨rest, -, rfl⟩ | ⟨pace, w, rest, haccept⟩ := step_cases hstep
  · exact inv_advance (inv_port h rest)
  · exact inv_hardwareReset _
  · obtain ⟨r, rfl⟩ | ⟨i, -, haccepted, ⟨-, rfl⟩ | ⟨-, rfl⟩⟩ := accept_cases haccept
    · exact inv_refuse (inv_port h rest) r
    · exact inv_perform_of_accepted (inv_port h rest) haccepted
    · exact inv_pending_of_accepted (inv_port h rest) haccepted

end Sys2Proof.Machine

namespace Sys2Proof.Machine

/-! ### The stepped pace against the whole pace (00_scope.md R13, 10_state.md R30, R33) -/

theorem coreRun_succ {M : Host.Core} {s t : M.State} (h : M.step s = .next t) (k : Nat) :
    M.run (k + 1) s = M.run k t := by
  simp only [Host.Core.run, h]

theorem run_succ {s t : State} (h : step s = .next t) (k : Nat) : core.run (k + 1) s = core.run k t :=
  coreRun_succ (M := core) h k

theorem step_request {s : State} (hidle : reqReady s = true) (pace : Pace) (w : RequestWord)
    (rest : List PortInput) :
    step { s with port := .request pace w :: rest } = accept pace w { s with port := rest } :=
  step_of_request_idle (s := { s with port := .request pace w :: rest }) rfl hidle

/-- The end of an operation is reached with its last event: an operation that can be in progress has
events. -/
theorem operationActions_any_isEvent (i : Instr) (s : State) :
    (operationActions i s).any isEvent = true := by
  cases i <;> rfl

/-- Both paces of an idle machine lead through one state `v` and one list of actions: the stepped pace
leaves them to come, the whole pace has done them. A refusal is the empty list. -/
theorem accept_paces (w : RequestWord) {s : State} (hidle : s.pending = []) :
    ∃ v as, accept .stepped w s = .next { v with pending := as } ∧
      accept .whole w s = .next (perform as v) ∧ v.pending = [] ∧ v.trace = s.trace ∧ v.port = s.port ∧
      (as = [] ∨ as.any isEvent = true) := by
  have hrefused : ∀ r, ({ refuse r s with pending := [] } : State) = refuse r s := fun r => by
    rw [← hidle]
    rfl
  cases hdecode : decode w with
  | error e =>
    refine ⟨refuse (.reservedRequest w) s, [], ?_, accept_of_decode_error hdecode _ _, hidle, rfl, rfl,
      .inl rfl⟩
    rw [hrefused, accept_of_decode_error hdecode]
  | ok i =>
    rw [accept_stepped_of_decode hdecode, accept_whole_of_decode hdecode, startStepped, exec_eq]
    cases hr : refusalOf i s with
    | some r => exact ⟨refuse r s, [], by rw [hrefused], rfl, hidle, rfl, rfl, .inl rfl⟩
    | none => exact ⟨s, operationActions i s, rfl, rfl, hidle, rfl, rfl,
        .inr (operationActions_any_isEvent i s)⟩

/-- `k` small steps with nothing driven take the actions up to the `k`-th event, or all of them. -/
theorem run_advance (k : Nat) {v : State} {as : List Action} (hport : v.port = [])
    (has : as = [] ∨ as.any isEvent = true) :
    ∃ done left, as = done ++ left ∧
      core.run k { v with pending := as } = .next { perform done v with pending := left } ∧
      done.countP isEvent = min k (as.countP isEvent) ∧ (left = [] ∨ left.any isEvent = true) := by
  induction k generalizing v as with
  | zero => exact ⟨[], as, rfl, rfl, by simp, has⟩
  | succ k ih =>
    obtain ⟨first, rest, hsplit, hemit, hfirst, hrest⟩ := emitNext_eq as { v with pending := as }
    have hstep : step { v with pending := as } = .next { perform first v with pending := rest } := by
      rw [step_of_nil (s := { v with pending := as }) hport, advance, hemit, perform_pending]
    obtain ⟨-, -, -, hport'⟩ := perform_keeps first v
    obtain ⟨done, left, hsplit', hrun, hdone, hleft⟩ := ih (hport'.trans hport) hrest
    refine ⟨first ++ done, left, by rw [hsplit, hsplit', List.append_assoc], ?_, ?_, hleft⟩
    · rw [perform_append]
      exact (run_succ hstep k).trans hrun
    · rw [List.countP_append, hfirst, hdone]
      have hcount : as.countP isEvent = first.countP isEvent + rest.countP isEvent := by
        rw [← List.countP_append, ← hsplit]
      omega

/-- The list left over is empty exactly when all events are out. -/
theorem left_eq_nil_iff {k : Nat} {as done left : List Action} (has : as = done ++ left)
    (hdone : done.countP isEvent = min k (as.countP isEvent))
    (hleft : left = [] ∨ left.any isEvent = true) : left = [] ↔ as.countP isEvent ≤ k := by
  have hcount : as.countP isEvent = done.countP isEvent + left.countP isEvent := by
    rw [← List.countP_append, ← has]
  constructor
  · rintro rfl
    rw [List.countP_nil] at hcount
    omega
  · intro hk
    refine hleft.resolve_right fun hany => ?_
    have hpos : 0 < left.countP isEvent := List.countP_pos_iff.mpr (List.any_eq_true.mp hany)
    omega

/-- A request at the stepped pace beside the same request at the whole pace: after `k` small steps the first
has done the actions up to the `k`-th event, the second all of them. -/
theorem run_stepped_of_step_whole {s t : State} {w : RequestWord} (k : Nat) (hidle : reqReady s = true)
    (h : step { s with port := [.request .whole w] } = .next t) :
    ∃ v done left, core.run (1 + k) { s with port := [.request .stepped w] } =
        .next { perform done v with pending := left } ∧
      t = perform (done ++ left) v ∧ v.pending = [] ∧ v.trace = s.trace ∧
      done.countP isEvent = min k ((done ++ left).countP isEvent) ∧
      (left = [] ∨ left.any isEvent = true) := by
  obtain ⟨v, as, hstepped, hwhole, hpending, htrace, hport, has⟩ :=
    accept_paces w (s := { s with port := [] }) ((reqReady_iff s).mp hidle)
  rw [step_request hidle, hwhole] at h
  obtain ⟨done, left, rfl, hrun, hdone, hleft⟩ := run_advance k hport has
  refine ⟨v, done, left, ?_, (Host.Outcome.next.inj h).symm, hpending, htrace, hdone, hleft⟩
  rw [Nat.add_comm]
  exact (run_succ ((step_request hidle _ _ _).trans hstepped) k).trans hrun

/-- The events of actions, counted from the trace before them. -/
theorem length_trace_perform (as : List Action) (s : State) :
    (perform as s).trace.length = s.trace.length + as.countP isEvent := by
  obtain ⟨es, htrace, hlength⟩ := perform_trace as s
  rw [htrace, List.length_append, hlength]

/-- Settles O32: after as many small steps as there are events no action is left. -/
theorem steppedRunReachesTheWholeRunsState : Obligations.SteppedRunReachesTheWholeRunsState := by
  unfold Obligations.SteppedRunReachesTheWholeRunsState
  intro s t w hidle h
  obtain ⟨v, done, left, hrun, rfl, hpending, htrace, hdone, hleft⟩ :=
    run_stepped_of_step_whole (t.trace.length - s.trace.length) hidle h
  rw [length_trace_perform, htrace, Nat.add_sub_cancel_left] at hrun hdone
  have hnil : left = [] := (left_eq_nil_iff rfl hdone hleft).mpr le_rfl
  subst hnil
  obtain ⟨-, -, hkeeps, -⟩ := perform_keeps done v
  rw [length_trace_perform, htrace, Nat.add_sub_cancel_left, hrun, List.append_nil,
    ← hkeeps.trans hpending]

/-- Settles O33: the trace after `k` small steps is that of the actions taken, whose events are the first `k`
of the operation's. -/
theorem midOperationTraceIsAPrefix : Obligations.MidOperationTraceIsAPrefix := by
  unfold Obligations.MidOperationTraceIsAPrefix
  intro s t w k hidle h
  obtain ⟨v, done, left, hrun, rfl, hpending, htrace, hdone, hleft⟩ := run_stepped_of_step_whole k hidle h
  refine ⟨_, hrun, ?_, ?_⟩
  · obtain ⟨es, hes, hlength⟩ := perform_trace done v
    obtain ⟨fs, hfs, hlength'⟩ := perform_trace left (perform done v)
    rw [List.countP_append] at hdone
    have hdoneEvents : es.take k = es := List.take_of_length_le (by omega)
    have hleftEvents : fs.take (k - es.length) = [] :=
      List.take_eq_nil_iff.mpr (by rw [← List.length_eq_zero_iff]; omega)
    rw [perform_append, hfs, hes, htrace, List.append_assoc, List.take_length_add_append,
      List.take_append, hdoneEvents, hleftEvents, List.append_nil, ← htrace, ← hes]
  · rw [reqReady_iff, length_trace_perform, htrace, Nat.add_le_add_iff_left]
    exact left_eq_nil_iff rfl hdone hleft

/-! ### Reset in the middle of an operation (70_reset_and_hazards.md R230, R244) -/

/-- Idle inputs before a reset cannot be seen after it, whatever is in progress. -/
theorem run_idles_then_reset (k : Nat) {s : State} {rest : List PortInput}
    (hport : s.port = List.replicate k .idle ++ .reset :: rest) :
    core.run (k + 1) s = .next { State.reset with port := rest } := by
  induction k generalizing s with
  | zero => rw [run_succ (step_of_reset hport)]; rfl
  | succ k ih =>
    rw [run_succ (step_of_idle hport)]
    obtain ⟨-, -, hkeeps⟩ :=
      emitNext_keeps s.pending { s with port := List.replicate k .idle ++ .reset :: rest }
    exact ih hkeeps

/-- Settles O35: the reset forgets everything but the port, and neither the acceptance nor a small step
touches the inputs still to come. -/
theorem resetMayCutAnOperationAnywhere : Obligations.ResetMayCutAnOperationAnywhere := by
  unfold Obligations.ResetMayCutAnOperationAnywhere
  intro s w k rest hidle
  obtain ⟨v, as, hstepped, -, -, -, hport, -⟩ :=
    accept_paces w (s := { s with port := List.replicate k .idle ++ .reset :: rest })
      ((reqReady_iff s).mp hidle)
  rw [step_of_reset (s := { s with port := .reset :: rest }) rfl]
  exact (run_succ ((step_request hidle _ _ _).trans hstepped) (k + 1)).trans (run_idles_then_reset k hport)

end Sys2Proof.Machine

namespace Sys2Proof.Machine

/-! ### The levels an operation leaves (10_state.md R28, 46_send.md R182) -/

/-- An event of a list of actions writes the pin of a role, as long as the pin registers stay what they
are. -/
theorem exists_role_of_mem_eventsOf {a : PinAssignment} {as : List Action} {p : PinId} {l : Level}
    (hpins : ∀ q, .setPins q ∈ as → q = a) (h : .P p l ∈ eventsOf a as) : ∃ role, p = pinOf a role := by
  induction as with
  | nil => cases h
  | cons x as ih =>
    have ih := ih fun q hq => hpins q (List.mem_cons_of_mem x hq)
    cases x with
    | gpioWrite role l' =>
      rcases List.mem_cons.mp h with heq | h
      · cases heq
        exact ⟨role, rfl⟩
      · exact ih h
    | delayUs n =>
      rcases List.mem_cons.mp h with heq | h
      · cases heq
      · exact ih h
    | setPins q =>
      rw [hpins q List.mem_cons_self] at h
      exact ih h
    | setShadow | setPhase => exact ih h

theorem pinOf_mem (a : PinAssignment) (role : PinRole) :
    pinOf a role ∈ [a.rs, a.en, a.d4, a.d5, a.d6, a.d7] := by
  cases role <;> simp [pinOf]

/-- The latch follows the trace through an operation, refused or not (R28). -/
theorem exec_trace_level {i : Instr} {s t : State} (h : exec i s = .next t) :
    ∃ es, t.trace = s.trace ++ es ∧ t.level = replay s.level es := by
  obtain ⟨r, -, rfl⟩ | ⟨-, rfl⟩ := exec_cases h
  · exact ⟨[], (List.append_nil _).symm, rfl⟩
  · rw [perform_eq]
    exact ⟨_, rfl, rfl⟩

/-- Settles O27: every event of an operation writes the pin of one of the six roles. -/
theorem otherPinsKeepTheirLevels : Obligations.OtherPinsKeepTheirLevels := by
  unfold Obligations.OtherPinsKeepTheirLevels
  intro i s t p h hp
  obtain ⟨es, htrace, hlevel⟩ := exec_trace_level h
  rw [hlevel]
  refine readLevel_replay_other s.level es p fun l hmem => hp ?_
  obtain rfl | ⟨hpin, hes⟩ := exec_events h htrace
  · cases hmem
  · rw [hes] at hmem
    obtain ⟨role, rfl⟩ := exists_role_of_mem_eventsOf
      (fun q hq => hpin ▸ eq_pinsAfter_of_setPins_mem hq) hmem
    exact pinOf_mem t.pin role

/-- With distinct pins, two different roles have different pins (R22). -/
theorem pinsDistinct_iff (a : PinAssignment) : pinsDistinct a = true ↔
    (a.rs ≠ a.en ∧ a.rs ≠ a.d4 ∧ a.rs ≠ a.d5 ∧ a.rs ≠ a.d6 ∧ a.rs ≠ a.d7) ∧
    (a.en ≠ a.d4 ∧ a.en ≠ a.d5 ∧ a.en ≠ a.d6 ∧ a.en ≠ a.d7) ∧
    (a.d4 ≠ a.d5 ∧ a.d4 ≠ a.d6 ∧ a.d4 ≠ a.d7) ∧ (a.d5 ≠ a.d6 ∧ a.d5 ≠ a.d7) ∧ a.d6 ≠ a.d7 := by
  simp [pinsDistinct]

/-- What a nibble leaves on distinct pins: its bits on the data lines, EN at 0, RS as it was (R181). -/
theorem readLevel_replay_nibEvents {a : PinAssignment} (hdistinct : pinsDistinct a = true) (lv : Levels)
    (n : Nibble) :
    readLevel (replay lv (nibEvents a n)) a.rs = readLevel lv a.rs ∧
    readLevel (replay lv (nibEvents a n)) a.d4 = some (n.getLsbD 0) ∧
    readLevel (replay lv (nibEvents a n)) a.d5 = some (n.getLsbD 1) ∧
    readLevel (replay lv (nibEvents a n)) a.d6 = some (n.getLsbD 2) ∧
    readLevel (replay lv (nibEvents a n)) a.d7 = some (n.getLsbD 3) := by
  obtain ⟨⟨hre, hr4, hr5, hr6, hr7⟩, ⟨he4, he5, he6, he7⟩, ⟨h45, h46, h47⟩, ⟨h56, h57⟩, h67⟩ :=
    (pinsDistinct_iff a).mp hdistinct
  simp [nibEvents, readLevel_writeLevel, *, he4.symm, he5.symm, he6.symm, he7.symm]

/-- A nibble leaves EN at 0, whatever shares its pin. -/
theorem readLevel_en_replay_nibEvents (lv : Levels) (a : PinAssignment) (n : Nibble) :
    readLevel (replay lv (nibEvents a n)) a.en = some false := by
  simp [nibEvents]

theorem ne_high_of_low {level : Option Level} (h : level = some false) : level ≠ some true := by
  simp [h]

theorem sendEvents_eq_nibbles (a : PinAssignment) (v : Byte) (m : Level) :
    sendEvents a v m = .P a.rs m :: nibEvents a (highNibble v) ++ nibEvents a (lowNibble v) :=
  (eventsOf_send a v m).symm.trans (eventsOf_send_nibbles a v m)

/-- What a byte leaves on distinct pins: EN at 0, RS as sent, the low nibble on the data lines (R182). -/
theorem readLevel_replay_sendEvents {a : PinAssignment} (hdistinct : pinsDistinct a = true) (lv : Levels)
    (v : Byte) (m : Level) :
    readLevel (replay lv (sendEvents a v m)) a.en = some false ∧
    readLevel (replay lv (sendEvents a v m)) a.rs = some m ∧
    readLevel (replay lv (sendEvents a v m)) a.d4 = some (v.getLsbD 0) ∧
    readLevel (replay lv (sendEvents a v m)) a.d5 = some (v.getLsbD 1) ∧
    readLevel (replay lv (sendEvents a v m)) a.d6 = some (v.getLsbD 2) ∧
    readLevel (replay lv (sendEvents a v m)) a.d7 = some (v.getLsbD 3) := by
  refine ⟨readLevel_en_replay_sendEvents lv a v m, ?_⟩
  rw [sendEvents_eq_nibbles, replay_append, replay_P]
  obtain ⟨hrsHigh, -⟩ := readLevel_replay_nibEvents hdistinct (writeLevel lv a.rs m) (highNibble v)
  obtain ⟨hrsLow, h4, h5, h6, h7⟩ := readLevel_replay_nibEvents hdistinct
    (replay (writeLevel lv a.rs m) (nibEvents a (highNibble v))) (lowNibble v)
  have hbit : ∀ k < 4, some ((lowNibble v).getLsbD k) = some (v.getLsbD k) := fun k hk =>
    congrArg some (nibbleBit_lowNibble v k hk)
  exact ⟨hrsLow.trans (hrsHigh.trans (readLevel_writeLevel_same lv a.rs m)),
    h4.trans (hbit 0 (by decide)), h5.trans (hbit 1 (by decide)), h6.trans (hbit 2 (by decide)),
    h7.trans (hbit 3 (by decide))⟩

/-- Settles O28: the operation's one byte is the last thing that writes a pin. -/
theorem linesHoldTheLastNibble : Obligations.LinesHoldTheLastNibble := by
  unfold Obligations.LinesHoldTheLastNibble
  intro i s t b hi hidle hphase hdistinct h hbyte
  rw [eq_afterOperation hi hidle hphase h, afterOperation_level, operationEvents_of_byte hbyte,
    replay_append, replay_waitsAfter]
  exact readLevel_replay_sendEvents hdistinct s.level b.byte b.rs

/-- Settles O29: the last thing INIT writes is the byte 0x06, as a command. -/
theorem initLeavesTheseLevels : Obligations.InitLeavesTheseLevels := by
  unfold Obligations.InitLeavesTheseLevels
  intro rs en d4 d5 d6 d7 s hidle hphase hdistinct
  refine ⟨_, exec_init rs en d4 d5 d6 d7 hidle hphase, ?_⟩
  rw [afterInit_level, initEvents_eq_bytes, ← List.append_assoc, replay_append]
  obtain ⟨hen, hrs, h4, h5, h6, h7⟩ :=
    readLevel_replay_sendEvents (a := ⟨rs, en, d4, d5, d6, d7⟩) hdistinct _ 0x06#8 false
  exact ⟨hrs, hen, h4, h5, h6, h7⟩

end Sys2Proof.Machine

namespace Sys2Proof.Machine

/-! ### The beats of a byte (46_send.md R184, R186) -/

/-- Beats of one stretch of a trace after another: the second starts from the latch the first leaves. -/
theorem beatsFrom_append {a : PinAssignment} {lv : Levels} {es fs : List Event} {bs cs : List Beat}
    (hes : beatsFrom a lv es = some bs) (hfs : beatsFrom a (replay lv es) fs = some cs) :
    beatsFrom a lv (es ++ fs) = some (bs ++ cs) := by
  induction es generalizing lv bs with
  | nil => cases hes; exact hfs
  | cons e es ih =>
    rw [List.cons_append]
    unfold beatsFrom at hes ⊢
    by_cases hfall : isFall a lv e = true
    · rw [if_pos hfall] at hes ⊢
      split at hes
      · next b bs' hsample hrest =>
        cases hes
        rw [hsample, ih hrest hfs, List.cons_append]
      · cases hes
    · rw [if_neg hfall] at hes ⊢
      exact ih hes hfs

/-- A nibble is put together again from its four lines (R186). -/
theorem nibbleOfBits_bits (n : Nibble) : nibbleOfBits n[3] n[2] n[1] n[0] = n := by
  revert n
  decide

/-- Events that, with RS at `m` and EN not at 1, give the controller these beats and leave RS and EN so. -/
def LatchesBeats (a : PinAssignment) (m : Level) (es : List Event) (bs : List Beat) : Prop :=
  ∀ lv, readLevel lv a.rs = some m → readLevel lv a.en ≠ some true →
    beatsFrom a lv es = some bs ∧ readLevel (replay lv es) a.rs = some m ∧
      readLevel (replay lv es) a.en ≠ some true

theorem LatchesBeats.append {a : PinAssignment} {m : Level} {es fs : List Event} {bs cs : List Beat}
    (hes : LatchesBeats a m es bs) (hfs : LatchesBeats a m fs cs) :
    LatchesBeats a m (es ++ fs) (bs ++ cs) := by
  intro lv hrs hen
  obtain ⟨hbs, hrs', hen'⟩ := hes lv hrs hen
  obtain ⟨hcs, hend⟩ := hfs _ hrs' hen'
  rw [replay_append]
  exact ⟨beatsFrom_append hbs hcs, hend⟩

@[simp] theorem beatsFrom_wait (a : PinAssignment) (lv : Levels) (n : Nat) :
    beatsFrom a lv [.W n] = some [] := rfl

theorem latchesBeats_wait (a : PinAssignment) (m : Level) (n : Nat) : LatchesBeats a m [.W n] [] :=
  fun lv hrs hen => ⟨beatsFrom_wait a lv n, hrs, hen⟩

/-- A nibble is one beat: EN falls once, with RS as it stands and the nibble on the data lines (R181,
R186). -/
theorem latchesBeats_nibEvents {a : PinAssignment} (hdistinct : pinsDistinct a = true) (m : Level)
    (n : Nibble) : LatchesBeats a m (nibEvents a n) [⟨m, n⟩] := by
  intro lv hrs hen
  obtain ⟨hrs', -⟩ := readLevel_replay_nibEvents hdistinct lv n
  refine ⟨?_, hrs'.trans hrs, ne_high_of_low (readLevel_en_replay_nibEvents lv a n)⟩
  obtain ⟨⟨hre, hr4, hr5, hr6, hr7⟩, ⟨he4, he5, he6, he7⟩, ⟨h45, h46, h47⟩, ⟨h56, h57⟩, h67⟩ :=
    (pinsDistinct_iff a).mp hdistinct
  simp [nibEvents, beatsFrom, isFall, latchEvent, sample, readLevel_writeLevel, nibbleOfBits_bits, *,
    he4.symm, he5.symm, he6.symm, he7.symm]

/-- RS may be written at any time while EN is not at 1. -/
theorem LatchesBeats.registerSelect {a : PinAssignment} {m : Level} {es : List Event} {bs : List Beat}
    (h : LatchesBeats a m es bs) (hdistinct : pinsDistinct a = true) {lv : Levels}
    (hen : readLevel lv a.en ≠ some true) : beatsFrom a lv (.P a.rs m :: es) = some bs := by
  obtain ⟨⟨hre, -⟩, -⟩ := (pinsDistinct_iff a).mp hdistinct
  have hfall : ¬ isFall a lv (.P a.rs m) = true := by simp [isFall, hre]
  have hen' : readLevel (writeLevel lv a.rs m) a.en ≠ some true := by
    rwa [readLevel_writeLevel_other lv a.rs a.en m hre.symm]
  rw [beatsFrom, if_neg hfall]
  exact (h (writeLevel lv a.rs m) (readLevel_writeLevel_same lv a.rs m) hen').1

/-- A byte is two beats, the high nibble first, both with RS as sent (R182, R184). -/
theorem beatsFrom_sendEvents {a : PinAssignment} (hdistinct : pinsDistinct a = true) {lv : Levels}
    (hen : readLevel lv a.en ≠ some true) (v : Byte) (m : Level) :
    beatsFrom a lv (sendEvents a v m) = some [⟨m, highNibble v⟩, ⟨m, lowNibble v⟩] := by
  rw [sendEvents_eq_nibbles]
  exact ((latchesBeats_nibEvents hdistinct m (highNibble v)).append
    (latchesBeats_nibEvents hdistinct m (lowNibble v))).registerSelect hdistinct hen

/-- Settles O36: the byte's two pulses by counting, its two beats by `beatsFrom_sendEvents`. -/
theorem sendGivesTwoBeatsHighNibbleFirst : Obligations.SendGivesTwoBeatsHighNibbleFirst := by
  unfold Obligations.SendGivesTwoBeatsHighNibbleFirst
  intro s b m hdistinct hen
  refine ⟨sendEvents s.pin b m, ?_, ?_, beatsFrom_sendEvents hdistinct hen b m⟩
  · rw [perform_send, afterEvents_trace]
  · rw [← eventsOf_send]
    exact writesOf_pinOf_eventsOf hdistinct (fun p hp => absurd hp (setPins_not_mem_send p b m)) .en true

/-! ### The stretches every operation's events are made of (46_send.md R181, R182, 40_init.md R111) -/

/-- Waits, writes of RS and whole nibbles, one after another. -/
inductive IsTransfer (a : PinAssignment) : List Event → Prop where
  | nil : IsTransfer a []
  | wait (n : Nat) : IsTransfer a [.W n]
  | registerSelect (m : Level) : IsTransfer a [.P a.rs m]
  | nibble (n : Nibble) : IsTransfer a (nibEvents a n)
  | append {es fs : List Event} : IsTransfer a es → IsTransfer a fs → IsTransfer a (es ++ fs)

theorem isTransfer_sendEvents (a : PinAssignment) (v : Byte) (m : Level) :
    IsTransfer a (sendEvents a v m) :=
  sendEvents_eq_nibbles a v m ▸ ((IsTransfer.registerSelect m).append (.nibble _)).append (.nibble _)

theorem isTransfer_resyncEvents (a : PinAssignment) : IsTransfer a (resyncEvents a) :=
  ((((((((IsTransfer.wait _).append (.registerSelect _)).append (.nibble _)).append (.wait _)).append
    (.nibble _)).append (.wait _)).append (.nibble _)).append (.wait _)).append (.nibble _)

theorem isTransfer_initEvents (a : PinAssignment) : IsTransfer a (initEvents a) :=
  initEvents_eq_bytes a ▸ (isTransfer_resyncEvents a).append (((((isTransfer_sendEvents a _ _).append
    (isTransfer_sendEvents a _ _)).append (isTransfer_sendEvents a _ _)).append (.wait _)).append
    (isTransfer_sendEvents a _ _))

theorem isTransfer_waitsAfter (a : PinAssignment) (i : Instr) : IsTransfer a (waitsAfter i) := by
  cases i with
  | clear | home => exact .wait 2000
  | _ => exact .nil

theorem isTransfer_operationEvents {i : Instr} (hi : i.isInit = false) (s : State) :
    IsTransfer s.pin (operationEvents i s) := by
  obtain ⟨b, hb⟩ := bytesSent_eq_singleton hi (s.ctrl, s.mode)
  rw [operationEvents_of_byte hb]
  exact (isTransfer_sendEvents s.pin b.byte b.rs).append (isTransfer_waitsAfter s.pin i)

/-- Whatever an operation appends, refused or not, is made of these stretches on the pins it leaves. -/
theorem isTransfer_of_exec {i : Instr} {s t : State} {es : List Event} (h : exec i s = .next t)
    (htrace : t.trace = s.trace ++ es) : IsTransfer t.pin es := by
  obtain ⟨r, rfl⟩ | ⟨-, -, a, rfl⟩ | ⟨hi, -, rfl⟩ := exec_effect_cases h
  · rw [List.self_eq_append_right.mp htrace]
    exact .nil
  · rw [← List.append_cancel_left ((afterInit_trace a s).symm.trans htrace)]
    exact isTransfer_initEvents a
  · rw [← List.append_cancel_left ((afterOperation_trace i s).symm.trans htrace)]
    exact isTransfer_operationEvents hi s

/-! ### Whole pulses (46_send.md R185) -/

theorem pulsesAreWhole_of_not_mem {en : PinId} {es : List Event} (h : .P en true ∉ es) :
    PulsesAreWhole en es := fun before after hes => absurd (by simp [hes]) h

theorem pulsesAreWhole_append {en : PinId} {es fs : List Event} (hes : PulsesAreWhole en es)
    (hfs : PulsesAreWhole en fs) : PulsesAreWhole en (es ++ fs) := by
  intro before after h
  obtain ⟨mid, rfl, hmid⟩ | ⟨mid, rfl, hmid⟩ := List.append_eq_append_iff.mp h
  · obtain ⟨⟨b, rfl⟩, hafter⟩ := hfs mid after hmid
    exact ⟨⟨es ++ b, (List.append_assoc _ _ _).symm⟩, hafter⟩
  · cases mid with
    | nil =>
      obtain ⟨⟨b, hb⟩, -⟩ := hfs [] after hmid.symm
      exact absurd hb (by simp)
    | cons e mid =>
      obtain ⟨rfl, rfl⟩ := List.cons_eq_cons.mp hmid
      obtain ⟨hbefore, a, rfl⟩ := hes before mid rfl
      exact ⟨hbefore, a ++ fs, by simp⟩

/-- The one `P(EN,1)` of a pulse is its third event, and the others are what R185 wants around it. -/
theorem pulsesAreWhole_pulseEvents (a : PinAssignment) : PulsesAreWhole a.en (pulseEvents a)
  | [], after, h => by simp [pulseEvents] at h
  | [e], after, h => by simp [pulseEvents] at h
  | [e, f], after, h => by
    obtain ⟨rfl, rfl, -, rfl⟩ : .P a.en false = e ∧ .W 1 = f ∧ True ∧ [.W 1, .P a.en false, .W 100] = after := by
      simpa [pulseEvents] using h
    exact ⟨⟨[], rfl⟩, [], rfl⟩
  | e :: f :: g :: before, after, h => by
    have hmem : .P a.en true ∈ [Event.W 1, .P a.en false, .W 100] := by
      rw [(List.cons_eq_cons.mp (List.cons_eq_cons.mp (List.cons_eq_cons.mp h).2).2).2]
      simp
    simp at hmem

theorem pulsesAreWhole_nibEvents {a : PinAssignment} (hdistinct : pinsDistinct a = true) (n : Nibble) :
    PulsesAreWhole a.en (nibEvents a n) := by
  obtain ⟨-, ⟨he4, he5, he6, he7⟩, -⟩ := (pinsDistinct_iff a).mp hdistinct
  rw [nibEvents_eq_dataLines_append_pulse]
  exact pulsesAreWhole_append (pulsesAreWhole_of_not_mem (by simp [he4, he5, he6, he7]))
    (pulsesAreWhole_pulseEvents a)

theorem IsTransfer.pulsesAreWhole {a : PinAssignment} {es : List Event} (h : IsTransfer a es)
    (hdistinct : pinsDistinct a = true) : PulsesAreWhole a.en es := by
  obtain ⟨⟨hre, -⟩, -⟩ := (pinsDistinct_iff a).mp hdistinct
  induction h with
  | nil => exact pulsesAreWhole_of_not_mem List.not_mem_nil
  | wait n => exact pulsesAreWhole_of_not_mem (by simp)
  | registerSelect m => exact pulsesAreWhole_of_not_mem (by simp [hre.symm])
  | nibble n => exact pulsesAreWhole_nibEvents hdistinct n
  | append _ _ ih ih' => exact pulsesAreWhole_append ih ih'

@[simp] theorem count_en_high_transmitNibble (n : Nibble) :
    (transmitNibble n).count (.gpioWrite .en true) = 1 := rfl

@[simp] theorem count_en_high_send (v : Byte) (m : Level) :
    (send v m).count (.gpioWrite .en true) = 2 := rfl

/-- One pulse for each of INIT's four lone nibbles, two for each of its four bytes (R110). -/
theorem count_en_high_initActions (rs en d4 d5 d6 d7 : PinId) :
    (initActions rs en d4 d5 d6 d7).count (.gpioWrite .en true) = 12 := by
  simp [initActions, resyncActions, configureActions]

theorem count_en_high_operationActions (i : Instr) (s : State) :
    (operationActions i s).count (.gpioWrite .en true) = if i.isInit then 12 else 2 := by
  cases hi : i.isInit with
  | true =>
    cases i with
    | init => exact count_en_high_initActions ..
    | _ => cases hi
  | false =>
    rcases operationActions_cases s hi with ⟨c, -, h⟩ | ⟨v, h⟩ | ⟨v, h⟩ | ⟨v, h⟩ | ⟨v, h⟩ <;>
      simp [h, changeDisplay, changeEntry]

/-- Settles O40: the pulses by counting the actions that raise EN, their shape stretch by stretch. -/
theorem pulsesAreFixedInNumberAndShape : Obligations.PulsesAreFixedInNumberAndShape := by
  unfold Obligations.PulsesAreFixedInNumberAndShape
  intro i s t es h htrace hne hdistinct
  have hcount := (writesOf_exec h htrace hdistinct .en true).resolve_left hne
  exact ⟨hcount.trans (count_en_high_operationActions i s),
    (isTransfer_of_exec h htrace).pulsesAreWhole hdistinct⟩

/-! ### Steady lines while EN is high (20_memory.md R67) -/

theorem steadyWhileHigh_append (a : PinAssignment) (lv : Levels) (es fs : List Event) :
    steadyWhileHigh a lv (es ++ fs) =
      (steadyWhileHigh a lv es && steadyWhileHigh a (replay lv es) fs) := by
  induction es generalizing lv with
  | nil => rfl
  | cons e es ih =>
    exact (congrArg (_ && ·) (ih (latchEvent lv e))).trans (Bool.and_assoc _ _ _).symm

/-- A stretch that finds EN not at 1 writes no line while EN is at 1, and leaves EN not at 1. -/
theorem IsTransfer.steady {a : PinAssignment} {es : List Event} (h : IsTransfer a es)
    (hdistinct : pinsDistinct a = true) {lv : Levels} (hen : readLevel lv a.en ≠ some true) :
    steadyWhileHigh a lv es = true ∧ readLevel (replay lv es) a.en ≠ some true := by
  obtain ⟨⟨hre, -⟩, ⟨he4, he5, he6, he7⟩, -⟩ := (pinsDistinct_iff a).mp hdistinct
  induction h generalizing lv with
  | nil => exact ⟨rfl, hen⟩
  | wait n => exact ⟨rfl, hen⟩
  | registerSelect m =>
    refine ⟨by simp [steadyWhileHigh, hen], ?_⟩
    rwa [replay_P, replay_nil, readLevel_writeLevel_other lv a.rs a.en m hre.symm]
  | nibble n =>
    refine ⟨?_, ne_high_of_low (readLevel_en_replay_nibEvents lv a n)⟩
    simp [nibEvents, steadyWhileHigh, latchEvent, readLevel_writeLevel, hen, he4, he5, he6, he7]
  | append _ _ ih ih' =>
    obtain ⟨hes, hen'⟩ := ih hen
    obtain ⟨hfs, hen''⟩ := ih' hen'
    rw [steadyWhileHigh_append, hes, hfs, replay_append]
    exact ⟨rfl, hen''⟩

/-- Settles O41: stretch by stretch, EN being low at the end of each. -/
theorem linesAreSteadyWhileEnableIsHigh : Obligations.LinesAreSteadyWhileEnableIsHigh := by
  unfold Obligations.LinesAreSteadyWhileEnableIsHigh
  intro i s t es h htrace hdistinct hen
  obtain ⟨hsteady, -⟩ := (isTransfer_of_exec h htrace).steady hdistinct hen
  exact hsteady

end Sys2Proof.Machine

namespace Sys2Proof.Machine

/-! ### A run of requests (30_encoding.md R14, R81) -/

/-- The state a run of operations of phase Ready leaves. -/
def afterOperations : List Instr → State → State
  | [], s => s
  | i :: is, s => afterOperations is (afterOperation i s)

/-- The events a run of operations appends. -/
def runEvents : List Instr → State → List Event
  | [], _ => []
  | i :: is, s => operationEvents i s ++ runEvents is (afterOperation i s)

@[simp] theorem afterOperations_trace (is : List Instr) (s : State) :
    (afterOperations is s).trace = s.trace ++ runEvents is s := by
  induction is generalizing s with
  | nil => exact (List.append_nil s.trace).symm
  | cons i is ih => rw [afterOperations, runEvents, ih, afterOperation_trace, List.append_assoc]

/-- A run of operations keeps the phase, the pins, `fn`, the mark and the readiness for a request. -/
theorem afterOperations_keeps (is : List Instr) (s : State) :
    (afterOperations is s).phase = s.phase ∧ (afterOperations is s).pin = s.pin ∧
      (afterOperations is s).fn = s.fn ∧ (afterOperations is s).refused = s.refused ∧
      reqReady (afterOperations is s) = reqReady s := by
  induction is generalizing s with
  | nil => exact ⟨rfl, rfl, rfl, rfl, rfl⟩
  | cons i is ih => exact ih (afterOperation i s)

theorem afterOperation_port_congr (i : Instr) (s : State) (port : List PortInput) :
    afterOperation i { s with port := port } = { afterOperation i s with port := port } := rfl

theorem step_encoded_request {i : Instr} {s : State} (hidle : reqReady s = true) (rest : List PortInput) :
    step { s with port := .request .whole (encode i) :: rest } = exec i { s with port := rest } := by
  rw [step_request hidle, accept_whole_of_decode (decodeOfEncodeIsTheInstruction i)]

/-- From an idle Ready state the requests run one after another, each in one step. -/
theorem run_requests {is : List Instr} (his : ∀ i ∈ is, i.isInit = false) {s : State}
    (hidle : reqReady s = true) (hphase : s.phase = .ready) :
    core.run is.length { s with port := requests is } = .next { afterOperations is s with port := [] } := by
  induction is generalizing s with
  | nil => rfl
  | cons i is ih =>
    have hstep : step { s with port := requests (i :: is) } =
        .next { afterOperation i s with port := requests is } := by
      rw [← afterOperation_port_congr]
      exact (step_encoded_request hidle _).trans
        (exec_operation (his i List.mem_cons_self) hidle hphase)
    exact (run_succ hstep is.length).trans
      (ih (s := afterOperation i s) (fun j hj => his j (List.mem_cons_of_mem i hj)) hidle hphase)

theorem writeChar_not_init {text : List Byte} : ∀ i ∈ text.map Instr.writeChar, i.isInit = false := by
  simp [Instr.isInit]

@[simp] theorem operationEvents_writeChar (c : Byte) (s : State) :
    operationEvents (.writeChar c) s = sendEvents s.pin c true := by
  simp [operationEvents, bytesSent, waitsAfter]

/-- A run of characters keeps `ctrl` and `mode`, and each character appends 21 events of 204 us (R170). -/
theorem writeChars_effect (text : List Byte) (s : State) :
    (afterOperations (text.map .writeChar) s).ctrl = s.ctrl ∧
      (afterOperations (text.map .writeChar) s).mode = s.mode ∧
      (runEvents (text.map .writeChar) s).length = 21 * text.length ∧
      minDuration (runEvents (text.map .writeChar) s) = 204 * text.length := by
  induction text generalizing s with
  | nil => exact ⟨rfl, rfl, rfl, rfl⟩
  | cons c text ih =>
    obtain ⟨hctrl, hmode, hlength, hduration⟩ := ih (afterOperation (.writeChar c) s)
    rw [List.map_cons, afterOperations, runEvents, hctrl, hmode, afterOperation_ctrl, afterOperation_mode,
      List.length_append, hlength, minDuration_append, hduration, operationEvents_writeChar,
      sendEvents_length, minDuration_sendEvents, List.length_cons]
    exact ⟨rfl, rfl, by omega, by omega⟩

/-- Settles O48: the run of the characters, one request a step. -/
theorem stringOfKCharactersAppends21KEvents : Obligations.StringOfKCharactersAppends21KEvents := by
  unfold Obligations.StringOfKCharactersAppends21KEvents
  intro text s hidle hphase
  obtain ⟨hctrl, hmode, hlength, hduration⟩ := writeChars_effect text s
  obtain ⟨hphase', hpin, hfn, hrefused, hready⟩ := afterOperations_keeps (text.map .writeChar) s
  have hrun := run_requests (writeChar_not_init (text := text)) hidle hphase
  rw [List.length_map] at hrun
  exact ⟨_, _, hrun, afterOperations_trace _ s, hlength, hduration, hphase', hpin, hfn, hctrl, hmode,
    hrefused, hready.trans hidle⟩

/-! ### The byte stream of a run (46_send.md R186, R187) -/

/-- The events, from this latch, give the controller these bytes. -/
def SendsBytes (a : PinAssignment) (lv : Levels) (es : List Event) (bytes : List BusByte) : Prop :=
  ∃ bs, beatsFrom a lv es = some bs ∧ bytesOfBeats bs = some bytes

theorem highNibble_append_lowNibble (v : Byte) : highNibble v ++ lowNibble v = v := by
  revert v
  decide

theorem bytesOfBeats_append {bs cs : List Beat} {xs ys : List BusByte} (hbs : bytesOfBeats bs = some xs)
    (hcs : bytesOfBeats cs = some ys) : bytesOfBeats (bs ++ cs) = some (xs ++ ys) := by
  induction bs using bytesOfBeats.induct generalizing xs with
  | case1 => cases hbs; exact hcs
  | case2 b => cases hbs
  | case3 h l rest hrs bytes hrest ih =>
    rw [bytesOfBeats, if_pos hrs, hrest] at hbs
    cases hbs
    rw [List.cons_append, List.cons_append, bytesOfBeats, if_pos hrs, ih hrest, List.cons_append]
  | case4 h l rest hrs hrest ih =>
    rw [bytesOfBeats, if_pos hrs, hrest] at hbs
    cases hbs
  | case5 h l rest hrs =>
    rw [bytesOfBeats, if_neg hrs] at hbs
    cases hbs

theorem SendsBytes.append {a : PinAssignment} {lv : Levels} {es fs : List Event} {xs ys : List BusByte}
    (hes : SendsBytes a lv es xs) (hfs : SendsBytes a (replay lv es) fs ys) :
    SendsBytes a lv (es ++ fs) (xs ++ ys) := by
  obtain ⟨bs, hbs, hxs⟩ := hes
  obtain ⟨cs, hcs, hys⟩ := hfs
  exact ⟨bs ++ cs, beatsFrom_append hbs hcs, bytesOfBeats_append hxs hys⟩

theorem sendsBytes_nil (a : PinAssignment) (lv : Levels) : SendsBytes a lv [] [] := ⟨[], rfl, rfl⟩

theorem sendsBytes_wait (a : PinAssignment) (lv : Levels) (n : Nat) : SendsBytes a lv [.W n] [] :=
  ⟨[], rfl, rfl⟩

theorem sendsBytes_sendEvents {a : PinAssignment} (hdistinct : pinsDistinct a = true) {lv : Levels}
    (hen : readLevel lv a.en ≠ some true) (v : Byte) (m : Level) :
    SendsBytes a lv (sendEvents a v m) [⟨m, v⟩] := by
  refine ⟨_, beatsFrom_sendEvents hdistinct hen v m, ?_⟩
  simp [bytesOfBeats, highNibble_append_lowNibble]

theorem sendsBytes_waitsAfter (a : PinAssignment) (lv : Levels) (i : Instr) :
    SendsBytes a lv (waitsAfter i) [] := by
  cases i with
  | clear | home => exact sendsBytes_wait a lv 2000
  | _ => exact sendsBytes_nil a lv

/-- An operation sends its byte of R87. -/
theorem sendsBytes_operationEvents {i : Instr} (hi : i.isInit = false) {s : State}
    (hdistinct : pinsDistinct s.pin = true) (hen : readLevel s.level s.pin.en ≠ some true) :
    SendsBytes s.pin s.level (operationEvents i s) (bytesSent i (s.ctrl, s.mode)) := by
  obtain ⟨b, hb⟩ := bytesSent_eq_singleton hi (s.ctrl, s.mode)
  rw [operationEvents_of_byte hb, hb]
  exact (sendsBytes_sendEvents hdistinct hen b.byte b.rs).append (sendsBytes_waitsAfter s.pin _ i)

/-- A run of operations sends the bytes of R87, one operation after another. -/
theorem sendsBytes_runEvents {is : List Instr} (his : ∀ i ∈ is, i.isInit = false) {s : State}
    (hdistinct : pinsDistinct s.pin = true) (hen : readLevel s.level s.pin.en ≠ some true) :
    SendsBytes s.pin s.level (runEvents is s) (bytesOfRun is (s.ctrl, s.mode)) := by
  induction is generalizing s with
  | nil => exact sendsBytes_nil s.pin s.level
  | cons i is ih =>
    have hi : i.isInit = false := his i List.mem_cons_self
    have hrest := ih (s := afterOperation i s) (fun j hj => his j (List.mem_cons_of_mem i hj))
    rw [afterOperation_pin] at hrest
    have hrest := hrest hdistinct (ne_high_of_low (readLevel_en_afterOperation hi s))
    rw [afterOperation_level, afterOperation_shadows] at hrest
    rw [runEvents, bytesOfRun]
    exact (sendsBytes_operationEvents hi hdistinct hen).append hrest

/-- INIT's resynchronization is its four lone beats (R112, R113). -/
theorem beatsFrom_resyncEvents {a : PinAssignment} (hdistinct : pinsDistinct a = true) {lv : Levels}
    (hen : readLevel lv a.en ≠ some true) : beatsFrom a lv (resyncEvents a) = some loneBeats := by
  have hnibble := latchesBeats_nibEvents hdistinct false
  have hwait := latchesBeats_wait a false
  have hlone := (hnibble 0x3#4).append ((hwait 4100).append ((hnibble 0x3#4).append ((hwait 4100).append
    ((hnibble 0x3#4).append ((hwait 150).append (hnibble 0x2#4))))))
  simp only [resyncEvents, List.append_assoc, List.cons_append, List.nil_append]
  exact beatsFrom_append (beatsFrom_wait a lv 40000) (hlone.registerSelect hdistinct hen)

theorem readLevel_en_replay_resyncEvents (lv : Levels) (a : PinAssignment) :
    readLevel (replay lv (resyncEvents a)) a.en = some false := by
  rw [resyncEvents, replay_append, readLevel_en_replay_nibEvents]

/-- INIT's four full bytes (R110). -/
theorem sendsBytes_initBytes {a : PinAssignment} (hdistinct : pinsDistinct a = true) {lv : Levels}
    (hen : readLevel lv a.en ≠ some true) :
    SendsBytes a lv (sendEvents a 0x28#8 false ++ sendEvents a 0x0C#8 false ++
        sendEvents a 0x01#8 false ++ [.W 2000] ++ sendEvents a 0x06#8 false)
      [⟨false, 0x28#8⟩, ⟨false, 0x0C#8⟩, ⟨false, 0x01#8⟩, ⟨false, 0x06#8⟩] := by
  have hafter : ∀ {es}, IsTransfer a es → readLevel (replay lv es) a.en ≠ some true := fun h =>
    (h.steady hdistinct hen).2
  have hsend := fun v {lv} => sendsBytes_sendEvents hdistinct (lv := lv) (v := v) (m := false)
  have htwo := (isTransfer_sendEvents a 0x28#8 false).append (isTransfer_sendEvents a 0x0C#8 false)
  have hthree := (htwo.append (isTransfer_sendEvents a 0x01#8 false)).append (.wait 2000)
  exact ((((hsend _ hen).append (hsend _ (hafter (isTransfer_sendEvents a _ _)))).append
    (hsend _ (hafter htwo))).append (sendsBytes_wait a _ 2000)).append (hsend _ (hafter hthree))

theorem byteStream_of_bytes {a : PinAssignment} (hdistinct : pinsDistinct a = true) {es fs : List Event}
    {bytes : List BusByte} (hes : beatsFrom a [] es = some loneBeats)
    (hfs : SendsBytes a (replay [] es) fs bytes) : byteStream a (es ++ fs) = some bytes := by
  obtain ⟨bs, hbs, hbytes⟩ := hfs
  rw [byteStream, beats, if_pos hdistinct, beatsFrom_append hes hbs]
  exact hbytes

theorem wellFormedRun_init {rs en d4 d5 d6 d7 : PinId} {is : List Instr}
    (h : wellFormedRun (.init rs en d4 d5 d6 d7 :: is) = true) :
    pinsDistinct ⟨rs, en, d4, d5, d6, d7⟩ = true ∧ ∀ i ∈ is, i.isInit = false := by
  simp only [wellFormedRun, Bool.and_eq_true, List.all_eq_true, Bool.not_eq_true'] at h
  obtain ⟨⟨-, hdistinct⟩, his⟩ := h
  exact ⟨hdistinct, fun i hi => (his i hi).1⟩

theorem afterInit_port_congr (a : PinAssignment) (s : State) (port : List PortInput) :
    afterInit a { s with port := port } = { afterInit a s with port := port } := by
  simp only [afterInit]

/-- INIT and then operations of phase Ready run one after another. -/
theorem run_init_requests {rs en d4 d5 d6 d7 : PinId} {is : List Instr}
    (his : ∀ i ∈ is, i.isInit = false) {s : State} (hidle : reqReady s = true)
    (hphase : s.phase = .uninitialized) :
    core.run (1 + is.length) { s with port := requests (.init rs en d4 d5 d6 d7 :: is) } =
      .next { afterOperations is (afterInit ⟨rs, en, d4, d5, d6, d7⟩ s) with port := [] } := by
  have hstep : step { s with port := requests (.init rs en d4 d5 d6 d7 :: is) } =
      .next { afterInit ⟨rs, en, d4, d5, d6, d7⟩ s with port := requests is } := by
    rw [← afterInit_port_congr]
    exact (step_encoded_request hidle _).trans (exec_init rs en d4 d5 d6 d7 hidle hphase)
  rw [Nat.add_comm]
  exact (run_succ hstep is.length).trans
    (run_requests his ((reqReady_afterInit _ s).trans hidle) (afterInit_phase _ s))

/-- INIT on distinct pins sends its four bytes, after the lone beats. -/
theorem byteStream_init_then {a : PinAssignment} (hdistinct : pinsDistinct a = true) {es : List Event}
    {bytes : List BusByte} (hes : SendsBytes a (replay [] (initEvents a)) es bytes) :
    byteStream a (initEvents a ++ es) =
      some ([⟨false, 0x28#8⟩, ⟨false, 0x0C#8⟩, ⟨false, 0x01#8⟩, ⟨false, 0x06#8⟩] ++ bytes) := by
  have hinit := sendsBytes_initBytes hdistinct (lv := replay [] (resyncEvents a))
    (ne_high_of_low (readLevel_en_replay_resyncEvents [] a))
  rw [initEvents_eq_bytes, replay_append] at hes
  rw [initEvents_eq_bytes, List.append_assoc]
  exact byteStream_of_bytes hdistinct (beatsFrom_resyncEvents hdistinct (by simp)) (hinit.append hes)

theorem byteStream_afterOperations {a : PinAssignment} (hdistinct : pinsDistinct a = true)
    {is : List Instr} (his : ∀ i ∈ is, i.isInit = false) {s : State} (hlevel : s.level = [])
    (htrace : s.trace = []) :
    byteStream a (afterOperations is (afterInit a s)).trace =
      some ([⟨false, 0x28#8⟩, ⟨false, 0x0C#8⟩, ⟨false, 0x01#8⟩, ⟨false, 0x06#8⟩] ++
        bytesOfRun is (0x04#8, 0x02#8)) := by
  have hbytes := sendsBytes_runEvents his (s := afterInit a s) hdistinct
    (ne_high_of_low (readLevel_en_afterInit a s))
  rw [afterInit_level, afterInit_pin, hlevel] at hbytes
  rw [afterOperations_trace, afterInit_trace, htrace]
  exact byteStream_init_then hdistinct hbytes

/-- Settles O38: INIT's lone beats and four bytes, and then each operation's byte, which finds EN low. -/
theorem runSendsTheBytesOfItsOperations : Obligations.RunSendsTheBytesOfItsOperations := by
  unfold Obligations.RunSendsTheBytesOfItsOperations
  intro rs en d4 d5 d6 d7 is hrun
  obtain ⟨hdistinct, his⟩ := wellFormedRun_init hrun
  generalize hreset : State.reset = s
  have hidle : reqReady s = true := hreset ▸ rfl
  have hbefore : s.phase = .uninitialized := hreset ▸ rfl
  have hclean : s.refused = false := hreset ▸ rfl
  obtain ⟨hphase, hpin, -, hrefused, -⟩ := afterOperations_keeps is (afterInit ⟨rs, en, d4, d5, d6, d7⟩ s)
  refine ⟨_, run_init_requests his hidle hbefore, ?_, hphase.trans (afterInit_phase _ _), ?_⟩
  · rw [clean, hrefused, afterInit_refused, hclean, Bool.not_false]
  · rw [hpin, afterInit_pin]
    exact byteStream_afterOperations hdistinct his (hreset ▸ rfl) (hreset ▸ rfl)

end Sys2Proof.Machine

namespace Sys2Proof.Machine

/-! ### Bits of the shadow registers (41_mode_toggles.md R120, R131 to R133) -/

/-- A mode operation's update of its register: the bits of the mask are set, or cleared (R120). -/
def writeFlag (on : Bool) (flag x : Byte) : Byte := if on then x ||| flag else x &&& ~~~flag

/-- The bits of the mask become `on`, the others stay. -/
theorem getElem_writeFlag (on : Bool) (flag x : Byte) (k : Nat) (hk : k < 8) :
    (writeFlag on flag x)[k] = if flag[k] then on else x[k] := by
  cases on <;> cases hflag : flag[k] <;> simp [writeFlag, hflag]

theorem writeFlag_idem (on : Bool) (flag x : Byte) :
    writeFlag on flag (writeFlag on flag x) = writeFlag on flag x := by
  apply BitVec.eq_of_getElem_eq
  intro k hk
  simp only [getElem_writeFlag]
  split <;> rfl

/-- A bit set and then cleared is cleared (R132). -/
theorem writeFlag_set_clear (flag x : Byte) :
    writeFlag false flag (writeFlag true flag x) = x &&& ~~~flag := by
  apply BitVec.eq_of_getElem_eq
  intro k hk
  show _ = (writeFlag false flag x)[k]
  simp only [getElem_writeFlag]
  split <;> rfl

theorem getElem_and_of_disjoint {x y : Byte} (h : x &&& y = 0#8) (k : Nat) (hk : k < 8) :
    (x[k] && y[k]) = false := by
  rw [← BitVec.getElem_and, h, BitVec.getElem_zero]

/-- Updates of disjoint masks commute (R133). -/
theorem writeFlag_comm {flag flag' : Byte} (hdisjoint : flag &&& flag' = 0#8) (on on' : Bool) (x : Byte) :
    writeFlag on flag (writeFlag on' flag' x) = writeFlag on' flag' (writeFlag on flag x) := by
  apply BitVec.eq_of_getElem_eq
  intro k hk
  have hbit := getElem_and_of_disjoint hdisjoint k hk
  simp only [getElem_writeFlag]
  cases hflag : flag[k] with
  | false => rfl
  | true =>
    rw [hflag, Bool.true_and] at hbit
    simp only [hbit, if_true, Bool.false_eq_true, if_false]

/-- Two commands that carry the bit set and cleared differ in that bit only (R132). -/
theorem command_xor_of_set_clear {base flag : Byte} (hdisjoint : base &&& flag = 0#8) (x : Byte) :
    (base ||| writeFlag true flag x) ^^^ (base ||| writeFlag false flag (writeFlag true flag x)) = flag := by
  apply BitVec.eq_of_getElem_eq
  intro k hk
  have hbit := getElem_and_of_disjoint hdisjoint k hk
  simp only [BitVec.getElem_xor, BitVec.getElem_or, getElem_writeFlag]
  cases hflag : flag[k] with
  | false => simp
  | true =>
    rw [hflag, Bool.and_true] at hbit
    simp [hbit]

/-! ### The mode operations by register, bit and direction (R121 to R130) -/

/-- The operation sets or clears this bit of `ctrl`. -/
structure WritesDisplayBit (i : Instr) (on : Bool) (flag : Byte) : Prop where
  bit : modeBit i = some (.ctrl, flag)
  completes : Completes i fun s => afterDisplay s (writeFlag on flag s.ctrl)

/-- The operation sets or clears this bit of `mode`. -/
structure WritesEntryBit (i : Instr) (on : Bool) (flag : Byte) : Prop where
  bit : modeBit i = some (.mode, flag)
  completes : Completes i fun s => afterEntry s (writeFlag on flag s.mode)

/-- The five pairs, three of `ctrl` and two of `mode`. -/
theorem setClearPair_cases {on off : Instr} (h : (on, off) ∈ setClearPairs) :
    ∃ flag,
      (flag ∈ [0x04#8, 0x02#8, 0x01#8] ∧ WritesDisplayBit on true flag ∧ WritesDisplayBit off false flag) ∨
      (flag ∈ [0x01#8, 0x02#8] ∧ WritesEntryBit on true flag ∧ WritesEntryBit off false flag) := by
  obtain ⟨⟨-, -, hdisplayOn⟩, ⟨-, -, hdisplayOff⟩, ⟨-, -, hcursorOn⟩, ⟨-, -, hcursorOff⟩,
    ⟨-, -, hblinkOn⟩, ⟨-, -, hblinkOff⟩⟩ := displayControlOperationsSetOrClearOneBit
  obtain ⟨⟨-, -, hautoscrollOn⟩, ⟨-, -, hautoscrollOff⟩, ⟨-, -, hleftToRight⟩, ⟨-, -, hrightToLeft⟩⟩ :=
    entryModeOperationsSetOrClearOneBit
  simp only [setClearPairs, List.mem_cons, Prod.mk.injEq, List.not_mem_nil, or_false] at h
  obtain ⟨rfl, rfl⟩ | ⟨rfl, rfl⟩ | ⟨rfl, rfl⟩ | ⟨rfl, rfl⟩ | ⟨rfl, rfl⟩ := h
  · exact ⟨0x04#8, .inl ⟨by decide, ⟨rfl, hdisplayOn⟩, ⟨rfl, hdisplayOff⟩⟩⟩
  · exact ⟨0x02#8, .inl ⟨by decide, ⟨rfl, hcursorOn⟩, ⟨rfl, hcursorOff⟩⟩⟩
  · exact ⟨0x01#8, .inl ⟨by decide, ⟨rfl, hblinkOn⟩, ⟨rfl, hblinkOff⟩⟩⟩
  · exact ⟨0x01#8, .inr ⟨by decide, ⟨rfl, hautoscrollOn⟩, ⟨rfl, hautoscrollOff⟩⟩⟩
  · exact ⟨0x02#8, .inr ⟨by decide, ⟨rfl, hleftToRight⟩, ⟨rfl, hrightToLeft⟩⟩⟩

/-- Every mode operation belongs to a pair. -/
theorem exists_pair_of_modeOperation :
    ∀ i ∈ modeOperations, ∃ p ∈ setClearPairs, i = p.1 ∨ i = p.2 := by decide

theorem modeOperation_cases {i : Instr} (h : i ∈ modeOperations) :
    ∃ on flag,
      (flag ∈ [0x04#8, 0x02#8, 0x01#8] ∧ WritesDisplayBit i on flag) ∨
      (flag ∈ [0x01#8, 0x02#8] ∧ WritesEntryBit i on flag) := by
  obtain ⟨p, hp, rfl | rfl⟩ := exists_pair_of_modeOperation i h
  · obtain ⟨flag, ⟨hflag, hon, -⟩ | ⟨hflag, hon, -⟩⟩ := setClearPair_cases hp
    · exact ⟨true, flag, .inl ⟨hflag, hon⟩⟩
    · exact ⟨true, flag, .inr ⟨hflag, hon⟩⟩
  · obtain ⟨flag, ⟨hflag, -, hoff⟩ | ⟨hflag, -, hoff⟩⟩ := setClearPair_cases hp
    · exact ⟨false, flag, .inl ⟨hflag, hoff⟩⟩
    · exact ⟨false, flag, .inr ⟨hflag, hoff⟩⟩

theorem WritesDisplayBit.exec_eq {i : Instr} {on : Bool} {flag : Byte} (h : WritesDisplayBit i on flag)
    {s t : State} (hidle : reqReady s = true) (hphase : s.phase = .ready) (hexec : exec i s = .next t) :
    t = afterDisplay s (writeFlag on flag s.ctrl) := by
  rw [h.completes s hidle hphase] at hexec
  exact (Host.Outcome.next.inj hexec).symm

theorem WritesEntryBit.exec_eq {i : Instr} {on : Bool} {flag : Byte} (h : WritesEntryBit i on flag)
    {s t : State} (hidle : reqReady s = true) (hphase : s.phase = .ready) (hexec : exec i s = .next t) :
    t = afterEntry s (writeFlag on flag s.mode) := by
  rw [h.completes s hidle hphase] at hexec
  exact (Host.Outcome.next.inj hexec).symm

theorem modeOperation_not_init : ∀ i ∈ modeOperations, i.isInit = false := by decide

theorem setClearPair_mode_operations : ∀ p ∈ setClearPairs, p.1 ∈ modeOperations ∧ p.2 ∈ modeOperations := by
  decide

/-- A mode operation leaves the machine idle and Ready, as it found it. -/
theorem idle_ready_after_modeOperation {i : Instr} (hi : i ∈ modeOperations) {s t : State}
    (hidle : reqReady s = true) (hphase : s.phase = .ready) (h : exec i s = .next t) :
    reqReady t = true ∧ t.phase = .ready := by
  rw [eq_afterOperation (modeOperation_not_init i hi) hidle hphase h, reqReady_afterOperation,
    afterOperation_phase]
  exact ⟨hidle, hphase⟩

/-- Settles O42: the second update finds its bit as it leaves it, so it sends the same byte. -/
theorem modeOperationsAreIdempotent : Obligations.ModeOperationsAreIdempotent := by
  unfold Obligations.ModeOperationsAreIdempotent
  intro i s t u hi hidle hphase hfirst hsecond
  obtain ⟨hidle', hphase'⟩ := idle_ready_after_modeOperation hi hidle hphase hfirst
  obtain ⟨on, flag, ⟨-, hbit⟩ | ⟨-, hbit⟩⟩ := modeOperation_cases hi
  all_goals
    obtain rfl := hbit.exec_eq hidle' hphase' hsecond
    obtain rfl := hbit.exec_eq hidle hphase hfirst
    simp only [afterDisplay_fn, afterDisplay_ctrl, afterDisplay_mode, afterDisplay_trace, afterDisplay_pin,
      afterEntry_fn, afterEntry_ctrl, afterEntry_mode, afterEntry_trace, afterEntry_pin, writeFlag_idem,
      true_and]
    exact ⟨_, sendEvents_length _ _ _, rfl, rfl⟩

/-- The masks of `ctrl` are single bits, and so are those of `mode`. -/
theorem flags_disjoint : ∀ f ∈ [0x04#8, 0x02#8, 0x01#8], ∀ g ∈ [0x04#8, 0x02#8, 0x01#8],
    f ≠ g → f &&& g = 0#8 := by decide

theorem entryFlag_mem : ∀ f ∈ [0x01#8, 0x02#8], f ∈ [0x04#8, 0x02#8, 0x01#8] := by decide

/-- Settles O44: updates of different registers do not meet, and different bits of one are disjoint. -/
theorem modeOperationsOnDifferentBitsCommute : Obligations.ModeOperationsOnDifferentBitsCommute := by
  unfold Obligations.ModeOperationsOnDifferentBitsCommute
  intro i j s si sij sj sji hi hj hne hidle hphase hexecI hexecIJ hexecJ hexecJI
  obtain ⟨hidleI, hphaseI⟩ := idle_ready_after_modeOperation hi hidle hphase hexecI
  obtain ⟨hidleJ, hphaseJ⟩ := idle_ready_after_modeOperation hj hidle hphase hexecJ
  obtain ⟨on, flag, ⟨hflag, hbit⟩ | ⟨hflag, hbit⟩⟩ := modeOperation_cases hi
  all_goals obtain ⟨on', flag', ⟨hflag', hbit'⟩ | ⟨hflag', hbit'⟩⟩ := modeOperation_cases hj
  all_goals
    obtain rfl := hbit'.exec_eq hidleI hphaseI hexecIJ
    obtain rfl := hbit.exec_eq hidleJ hphaseJ hexecJI
    obtain rfl := hbit.exec_eq hidle hphase hexecI
    obtain rfl := hbit'.exec_eq hidle hphase hexecJ
    simp only [afterDisplay_fn, afterDisplay_ctrl, afterDisplay_mode, afterEntry_fn, afterEntry_ctrl,
      afterEntry_mode, and_true, true_and]
  · rw [hbit.bit, hbit'.bit] at hne
    exact writeFlag_comm (flags_disjoint _ hflag' _ hflag fun h => hne (by rw [h])) _ _ _
  · rw [hbit.bit, hbit'.bit] at hne
    exact writeFlag_comm (flags_disjoint _ (entryFlag_mem _ hflag') _ (entryFlag_mem _ hflag)
      fun h => hne (by rw [h])) _ _ _

/-- Settles O51: the bit is set and then cleared, and the two commands differ in it only. -/
theorem everySetClearPairClearsOnlyItsBit : Obligations.EverySetClearPairClearsOnlyItsBit := by
  unfold Obligations.EverySetClearPairClearsOnlyItsBit
  intro on off r flag s t u hpair hmodeBit hidle hphase hon hoff
  obtain ⟨hmem, -⟩ := setClearPair_mode_operations _ hpair
  obtain ⟨hidle', hphase'⟩ := idle_ready_after_modeOperation hmem hidle hphase hon
  obtain ⟨flag', ⟨hflag, hset, hclear⟩ | ⟨hflag, hset, hclear⟩⟩ := setClearPair_cases hpair
  all_goals
    obtain ⟨rfl, rfl⟩ : _ = r ∧ flag' = flag := by simpa using hset.bit.symm.trans hmodeBit
    obtain rfl := hclear.exec_eq hidle' hphase' hoff
    obtain rfl := hset.exec_eq hidle hphase hon
  · have hdisjoint : 0x08#8 &&& flag' = 0#8 :=
      (by decide : ∀ f ∈ [0x04#8, 0x02#8, 0x01#8], 0x08#8 &&& f = 0#8) _ hflag
    refine ⟨?_, fun q hq => ?_, _, _, command_xor_of_set_clear hdisjoint s.ctrl, ?_⟩
    · simp only [readShadow, afterDisplay_ctrl, writeFlag_set_clear]
    · cases q <;> simp_all [readShadow]
    · simp only [afterDisplay_trace, afterDisplay_pin, afterDisplay_ctrl]
  · have hdisjoint : 0x04#8 &&& flag' = 0#8 :=
      (by decide : ∀ f ∈ [0x01#8, 0x02#8], 0x04#8 &&& f = 0#8) _ hflag
    refine ⟨?_, fun q hq => ?_, _, _, command_xor_of_set_clear hdisjoint s.mode, ?_⟩
    · simp only [readShadow, afterEntry_mode, writeFlag_set_clear]
    · cases q <;> simp_all [readShadow]
    · simp only [afterEntry_trace, afterEntry_pin, afterEntry_mode]

/-- Settles O43: the pair DISPLAY_ON and DISPLAY_OFF of O51, bit by bit. -/
theorem displayOnThenOffClearsOnlyTheOnBit : Obligations.DisplayOnThenOffClearsOnlyTheOnBit := by
  unfold Obligations.DisplayOnThenOffClearsOnlyTheOnBit
  intro s t u hidle hphase hon hoff
  obtain ⟨hctrl, -, hbytes⟩ := everySetClearPairClearsOnlyItsBit .displayOn .displayOff .ctrl 0x04#8 s t u
    (by decide) rfl hidle hphase hon hoff
  have hctrl : u.ctrl = s.ctrl &&& ~~~BitVec.twoPow 8 2 := hctrl
  refine ⟨?_, fun k hk => ?_, hbytes⟩
  · simp [hctrl]
  · simpa [hctrl, BitVec.getLsbD_twoPow, hk.symm] using BitVec.lt_of_getLsbD

/-! ### The address of SET_CURSOR (44_set_cursor.md R163) -/

theorem toNat_ddramCommand (address : Byte) :
    (0x80#8 ||| address).toNat = 128 + address.toNat % 128 := by
  revert address
  decide

/-- Settles O46: bit 7 is forced, and the bits below are the sum's. -/
theorem cursorAddressIsTakenModulo128 : Obligations.CursorAddressIsTakenModulo128 := by
  unfold Obligations.CursorAddressIsTakenModulo128
  intro col row
  have hcommand : cursorCommand col row = 0x80#8 ||| ddramAddress col row :=
    congrArg (0x80#8 ||| ·) (cursorAddress_eq_ddramAddress col row)
  have hrow : row = 0#8 ↔ row.toNat = 0 := BitVec.toNat_eq
  rw [hcommand, toNat_ddramCommand, ddramAddress, BitVec.toNat_add,
    Nat.mod_mod_of_dvd _ (by decide : 128 ∣ 2 ^ 8)]
  simp only [hrow]
  split <;> rfl

/-! ### Strings (45_write.md R171, R172) -/

theorem writeString_cons_terminator (rest : List Byte) : writeString (0x00#8 :: rest) = .ok [] := rfl

theorem writeString_cons {c : Byte} (hc : c ≠ 0x00#8) (rest : List Byte) :
    writeString (c :: rest) = (writeString rest).map (.writeChar c :: ·) := by
  rw [writeString, if_neg (show ¬ c = config.strTerminator from hc)]
  cases writeString rest <;> rfl

/-- Settles O47: by induction on the text, whose bytes are not the terminator. -/
theorem writeStringExpandsToItsCharacters : Obligations.WriteStringExpandsToItsCharacters := by
  unfold Obligations.WriteStringExpandsToItsCharacters
  intro text rest htext
  induction text with
  | nil => exact ⟨writeString_cons_terminator rest, rfl⟩
  | cons c text ih =>
    have hc : c ≠ 0x00#8 := fun h => htext (h ▸ List.mem_cons_self)
    obtain ⟨hterminated, hunterminated⟩ := ih fun h => htext (List.mem_cons_of_mem c h)
    rw [List.cons_append, writeString_cons hc, writeString_cons hc, hterminated, hunterminated]
    exact ⟨rfl, rfl⟩

/-- Settles O49: `FmtInt(42)` is the text "42", which WRITE_STRING expands. -/
theorem writeInt42IsWriteString42 : Obligations.WriteInt42IsWriteString42 := by
  unfold Obligations.WriteInt42IsWriteString42
  exact ⟨rfl, rfl⟩

/-! ### The bytes that are sent (30_encoding.md R89, 46_send.md R188) -/

/-- A byte sent is known from its events. -/
theorem sendEvents_injective {a : PinAssignment} {v v' : Byte} {m m' : Level}
    (h : sendEvents a v m = sendEvents a v' m') : v = v' ∧ m = m' := by
  simp only [sendEvents, List.cons.injEq, Event.P.injEq, true_and, and_true] at h
  obtain ⟨hm, h4, h5, h6, h7, h0, h1, h2, h3⟩ := h
  refine ⟨BitVec.eq_of_getLsbD_eq fun k hk => ?_, hm⟩
  interval_cases k <;> assumption

/-- The commands operations send (R87): an entry mode or a display control with its flags, CLEAR, HOME, a
whole-display shift, an address. -/
def IsSentCommand (v : Byte) : Prop :=
  (1 ≤ v.toNat ∧ v.toNat < 0x10) ∨ v = 0x18#8 ∨ v = 0x1C#8 ∨ 0x80 ≤ v.toNat

/-- A command code with flags below it. -/
theorem isSentCommand_or {code flags : Byte} (hpos : 1 ≤ code.toNat) (hcode : code.toNat < 2 ^ 4)
    (hflags : flags.toNat < 2 ^ 4) : IsSentCommand (code ||| flags) := by
  refine .inl ⟨?_, or_toNat_lt_two_pow hcode hflags⟩
  rw [BitVec.toNat_or]
  exact hpos.trans Nat.left_le_or

theorem isSentCommand_address (address : Byte) : IsSentCommand (0x80#8 ||| address) := by
  refine .inr (.inr (.inr ?_))
  rw [toNat_ddramCommand]
  omega

/-- A character is sent with RS = 1, and everything else is a command of R87 with RS = 0. -/
theorem byte_of_operation {i : Instr} {c m : Byte} {b : BusByte} (hi : i.isInit = false) (hc : c.toNat ≤ 7)
    (hm : m.toNat ≤ 3) (hb : bytesSent i (c, m) = [b]) :
    (b.rs = true ∧ ∃ ch, i = .writeChar ch) ∨
      (b.rs = false ∧ (∀ ch, i ≠ .writeChar ch) ∧ IsSentCommand b.byte) := by
  obtain ⟨hc', hm'⟩ := shadowsAfter_le i hc hm
  cases i with
  | init => cases hi
  | writeChar ch => cases hb; exact .inl ⟨rfl, ch, rfl⟩
  | clear | home => cases hb; exact .inr ⟨rfl, nofun, .inl (by decide)⟩
  | shiftLeft => cases hb; exact .inr ⟨rfl, nofun, .inr (.inl rfl)⟩
  | shiftRight => cases hb; exact .inr ⟨rfl, nofun, .inr (.inr (.inl rfl))⟩
  | setCursor => cases hb; exact .inr ⟨rfl, nofun, isSentCommand_address _⟩
  | displayOn | displayOff | cursorOn | cursorOff | blinkOn | blinkOff =>
    cases hb; exact .inr ⟨rfl, nofun, isSentCommand_or (by decide) (by decide) (by omega)⟩
  | autoscrollOn | autoscrollOff | leftToRight | rightToLeft =>
    cases hb; exact .inr ⟨rfl, nofun, isSentCommand_or (by decide) (by decide) (by omega)⟩

/-- None of R89's commands is among them. -/
theorem not_forbidden_of_isSentCommand {v : Byte} (h : IsSentCommand v) :
    v ≠ 0x00#8 ∧ ¬(0x40 ≤ v.toNat ∧ v.toNat < 0x80) ∧ v ≠ 0x10#8 ∧ v ≠ 0x14#8 ∧
      ¬(0x20 ≤ v.toNat ∧ v.toNat < 0x40) := by
  have hrange : (1 ≤ v.toNat ∧ v.toNat < 0x10) ∨ v.toNat = 0x18 ∨ v.toNat = 0x1C ∨ 0x80 ≤ v.toNat :=
    h.imp_right (.imp BitVec.toNat_eq.mp (.imp_left BitVec.toNat_eq.mp))
  simp only [BitVec.toNat_ne, BitVec.toNat_ofNat]
  omega

/-- INIT's events, byte by byte. -/
theorem initEvents_eq_flatMap (a : PinAssignment) :
    initEvents a = resyncEvents a ++ [0x28#8, 0x0C#8, 0x01#8, 0x06#8].flatMap fun v =>
      sendEvents a v false ++ if v = 0x01#8 then [.W 2000] else [] := by
  simp [initEvents_eq_bytes]

/-- Settles O39: the trace shows the byte of R87, whose range `byte_of_operation` gives; INIT's events are
those of its four bytes. -/
theorem forbiddenCommandsAreNeverSent : Obligations.ForbiddenCommandsAreNeverSent := by
  unfold Obligations.ForbiddenCommandsAreNeverSent
  refine ⟨fun i s t b hi hidle hphase hok h htrace => ?_, fun i s hinit hidle hphase => ?_⟩
  · obtain ⟨-, hctrl, hmode, -⟩ := hok hphase
    obtain ⟨b', hb'⟩ := bytesSent_eq_singleton hi (s.ctrl, s.mode)
    rw [eq_afterOperation hi hidle hphase h, afterOperation_trace, operationEvents_of_byte hb',
      List.append_assoc] at htrace
    obtain ⟨hbyte, hrs⟩ :=
      sendEvents_injective (List.append_cancel_right (List.append_cancel_left htrace))
    rw [← hbyte, ← hrs]
    obtain ⟨hdata, hchar⟩ | ⟨hcommand, hnot, hsent⟩ := byte_of_operation hi hctrl hmode hb'
    · exact ⟨iff_of_true hdata hchar, fun h => absurd (hdata.symm.trans h) nofun⟩
    · exact ⟨iff_of_false (hcommand ▸ nofun) fun ⟨ch, hch⟩ => hnot ch hch,
        fun _ => not_forbidden_of_isSentCommand hsent⟩
  · cases i with
    | init rs en d4 d5 d6 d7 =>
      refine ⟨_, exec_init rs en d4 d5 d6 d7 hidle hphase, ?_⟩
      rw [afterInit_trace, afterInit_pin, initEvents_eq_flatMap, List.append_assoc]
    | _ => cases hinit

end Sys2Proof.Machine
